-- ==== Sys2Proof/Word.lean ====
section
/-! DEFINITION. The two data types of the hardware: the 16-bit word and the byte (00_scope.md R5, R9).
Bits are numbered with bit 0 the least significant (R7), as `BitVec` numbers them; sums and differences of
words are modulo 2^16 (R10). -/

namespace Sys2Proof

/-- A 16-bit word: a register, the program counter, an address, a port value, an instruction (R9). -/
abbrev Word := BitVec 16

/-- A byte of memory (R9). -/
abbrev Byte := BitVec 8

end Sys2Proof
end

