-- ==== Sys2Proof/Config.lean ====
section
/-! DEFINITION. The parameters of the model (00_scope.md R6): what a launch fixes (RESET_PC, INIT_REGS, INIT_MEM,
INIT_OUT) and the oracle that answers every IN. The parameter END is an argument of `runUntil` in Sys2Proof/Safety.lean. -/

namespace Sys2Proof

/-- A port number, 0 to 255 (44_input_output.md R150). Input port `p` and output port `p` are different objects. -/
abbrev Port := Fin 256

/-- One event of the I/O trace (44_input_output.md R154): `(in, p, value)` or `(out, p, value)`. -/
inductive IoEvent where
  | input (p : Port) (v : Word)
  | output (p : Port) (v : Word)
deriving DecidableEq, Repr

/-- What a launch fixes (70_reset_and_hazards.md R191 to R194). `initMem` lists the bytes the launch gives values to, in
the order they are placed (a later pair wins); every INIT_MEM of 65536 bytes is such a list. -/
structure Launch where
  resetPc : Word
  initRegs : Vector Word 8
  initMem : List (Word × Byte)
  initOut : Vector Word 256
deriving DecidableEq, Repr

/-- The launch whose parameters are the default RESET_PC (R191) and, where the spec gives no value, zero.
DESIGN CHOICE (log entries 1 to 4), unsafe: the spec leaves registers, memory and output ports arbitrary. -/
def Config.defaultLaunch : Launch :=
  { resetPc := 0x0000#16
    initRegs := Vector.replicate 8 0x0000#16
    initMem := []
    initOut := Vector.replicate 256 0x0000#16 }

/-- InputOracle (44_input_output.md R152): the value input port `p` presents after the I/O events `history`. A free value:
it has no body, so nothing can be proved of what it answers, and a claim holds whatever it answers (log entry 5, safe). -/
opaque Config.inputOracle (p : Port) (history : List IoEvent) : Word

end Sys2Proof
end

