-- ==== Sys2Proof/Syntax.lean ====
section
/-! DEFINITION. The instructions (one constructor per row of spec/opcode_table.json), their mnemonics, and the assembler
lines of 30_encoding.md section 6. Operands stand in the order the assembler form gives them, but for the data
register of a store, which follows the base register. -/

namespace Sys2Proof

/-- A register number, the value of a 3-bit field (10_state.md R21): `k` names Rk. -/
abbrev RegNum := Fin 8

/-- The 25 instructions (00_scope.md R2). `d` destination, `a` first source or base, `b` second source or store data,
`n` the field N6 or N8 as its bits (30_encoding.md R72 to R76). IN is `inp`, since `in` is a word of Lean's own. -/
inductive Instr where
  | and (d a b : RegNum)
  | or (d a b : RegNum)
  | xor (d a b : RegNum)
  | not (d a : RegNum)
  | add (d a b : RegNum)
  | sub (d a b : RegNum)
  | sha (d a b : RegNum)
  | shl (d a b : RegNum)
  | cmplt (d a b : RegNum)
  | cmple (d a b : RegNum)
  | cmpeq (d a b : RegNum)
  | cmpltu (d a b : RegNum)
  | cmpleu (d a b : RegNum)
  | addi (d a : RegNum) (n : BitVec 6)
  | ld (d a : RegNum) (n : BitVec 6)
  | st (a b : RegNum) (n : BitVec 6)
  | ldb (d a : RegNum) (n : BitVec 6)
  | stb (a b : RegNum) (n : BitVec 6)
  | jalr (d a : RegNum)
  | bz (a : RegNum) (n : BitVec 8)
  | bnz (a : RegNum) (n : BitVec 8)
  | movi (d : RegNum) (n : BitVec 8)
  | movhi (d : RegNum) (n : BitVec 8)
  | inp (d : RegNum) (n : BitVec 8)
  | out (n : BitVec 8) (a : RegNum)
deriving DecidableEq, Repr

/-- The 25 mnemonics of spec/opcode_table.json. -/
inductive Mnemonic where
  | and | or | xor | not | add | sub | sha | shl
  | cmplt | cmple | cmpeq | cmpltu | cmpleu
  | addi | ld | st | ldb | stb | jalr
  | bz | bnz | movi | movhi | inp | out
deriving DecidableEq, Repr

/-- The row of the opcode table an instruction belongs to. -/
def Instr.mnemonic : Instr → Mnemonic
  | .and _ _ _ => .and
  | .or _ _ _ => .or
  | .xor _ _ _ => .xor
  | .not _ _ => .not
  | .add _ _ _ => .add
  | .sub _ _ _ => .sub
  | .sha _ _ _ => .sha
  | .shl _ _ _ => .shl
  | .cmplt _ _ _ => .cmplt
  | .cmple _ _ _ => .cmple
  | .cmpeq _ _ _ => .cmpeq
  | .cmpltu _ _ _ => .cmpltu
  | .cmpleu _ _ _ => .cmpleu
  | .addi _ _ _ => .addi
  | .ld _ _ _ => .ld
  | .st _ _ _ => .st
  | .ldb _ _ _ => .ldb
  | .stb _ _ _ => .stb
  | .jalr _ _ => .jalr
  | .bz _ _ => .bz
  | .bnz _ _ => .bnz
  | .movi _ _ => .movi
  | .movhi _ _ => .movhi
  | .inp _ _ => .inp
  | .out _ _ => .out

/-- The destination register, where an instruction has one: every instruction but ST, STB, BZ, BNZ and OUT
(10_state.md R23). -/
def Instr.dest : Instr → Option RegNum
  | .and d _ _ | .or d _ _ | .xor d _ _ | .not d _ | .add d _ _ | .sub d _ _ | .sha d _ _ | .shl d _ _ => some d
  | .cmplt d _ _ | .cmple d _ _ | .cmpeq d _ _ | .cmpltu d _ _ | .cmpleu d _ _ => some d
  | .addi d _ _ | .ld d _ _ | .ldb d _ _ | .jalr d _ | .movi d _ | .movhi d _ | .inp d _ => some d
  | .st _ _ _ | .stb _ _ _ | .bz _ _ | .bnz _ _ | .out _ _ => none

/-- The registers an instruction reads (10_state.md R23): MOVHI reads its own destination. -/
def Instr.sources : Instr → List RegNum
  | .and _ a b | .or _ a b | .xor _ a b | .add _ a b | .sub _ a b | .sha _ a b | .shl _ a b => [a, b]
  | .cmplt _ a b | .cmple _ a b | .cmpeq _ a b | .cmpltu _ a b | .cmpleu _ a b => [a, b]
  | .not _ a | .addi _ a _ | .ld _ a _ | .ldb _ a _ | .jalr _ a | .bz a _ | .bnz a _ | .out _ a => [a]
  | .st a b _ | .stb a b _ => [a, b]
  | .movhi d _ => [d]
  | .movi _ _ | .inp _ _ => []

/-- A name an assembler line may begin with: a mnemonic, or one of the two spellings of the source's introduction
that a transcriber may accept (30_encoding.md R91, 90_conflicts.md C1). -/
inductive AsmName where
  | op (m : Mnemonic)
  | cmpl
  | cmplu
deriving DecidableEq, Repr

/-- The mnemonic a name stands for: CMPL is CMPLE and CMPLU is CMPLEU (R91). -/
def AsmName.mnemonic : AsmName → Mnemonic
  | .op m => m
  | .cmpl => .cmple
  | .cmplu => .cmpleu

/-- An operand as an assembler line writes it (R88): `R<k>`, a literal, or `<disp>(R<base>)`. The numbers are as written,
not yet checked. -/
inductive AsmOperand where
  | reg (k : Nat)
  | lit (v : Int)
  | disp (v : Int) (base : Nat)
deriving DecidableEq, Repr

/-- An assembler line: mnemonic first, then the operands in the order written (R88). -/
structure AsmLine where
  name : AsmName
  operands : List AsmOperand
deriving DecidableEq, Repr

/-- The operand forms of the "Assembler" column (R88). -/
inductive AsmForm where
  | regRegReg   -- OP Rd, Ra, Rb
  | regReg      -- OP Rd, Ra
  | regRegN6    -- OP Rd, Ra, N6
  | regDisp     -- OP Rd, N6(Ra)
  | dispReg     -- OP N6(Ra), Rb
  | regN8       -- OP R, N8
  | n8Reg       -- OP N8, Ra
deriving DecidableEq, Repr

/-- The operand form of each mnemonic (R88). -/
def Mnemonic.form : Mnemonic → AsmForm
  | .and | .or | .xor | .add | .sub | .sha | .shl => .regRegReg
  | .cmplt | .cmple | .cmpeq | .cmpltu | .cmpleu => .regRegReg
  | .not | .jalr => .regReg
  | .addi => .regRegN6
  | .ld | .ldb => .regDisp
  | .st | .stb => .dispReg
  | .bz | .bnz | .movi | .movhi | .inp => .regN8
  | .out => .n8Reg

end Sys2Proof
end

