-- ==== Sys2Proof/WellFormed.lean ====
section
/-! DEFINITION. The checks on what the outside writes: an assembler line (30_encoding.md R88, R89), a launch
(70_reset_and_hazards.md R191) and a set END (R197). An `Instr` needs none: its register numbers are `Fin 8` and its
immediates bit fields of their width, and every value of every field is an instruction (R78), so each `Instr` is well
formed by its type. -/

namespace Sys2Proof

/-- A word that may be an address of an instruction: its bit 0 is clear (10_state.md R27). -/
def isEven (a : Word) : Bool := !a.getLsbD 0

/-- An odd RESET_PC is refused (70_reset_and_hazards.md R191). -/
def Launch.wf (p : Launch) : Bool := isEven p.resetPc

/-- END is a set of even addresses (R197). -/
def endsWf (ends : List Word) : Bool := ends.all isEven

/-- Registers are written R0 to R7 (30_encoding.md R88). -/
def regWf (k : Nat) : Bool := decide (k < 8)

/-- A literal `v` is accepted for an `n`-bit field when -2^(n-1) <= v <= 2^n - 1 (R89). -/
def litWf (n : Nat) (v : Int) : Bool := decide (-(2 ^ (n - 1) : Int) ≤ v ∧ v ≤ 2 ^ n - 1)

/-- The operands fit the form: number, kinds and order (R88), register numbers, and literals (R89). -/
def AsmForm.accepts : AsmForm → List AsmOperand → Bool
  | .regRegReg, [.reg d, .reg a, .reg b] => regWf d && regWf a && regWf b
  | .regReg, [.reg d, .reg a] => regWf d && regWf a
  | .regRegN6, [.reg d, .reg a, .lit v] => regWf d && regWf a && litWf 6 v
  | .regDisp, [.reg d, .disp v a] => regWf d && regWf a && litWf 6 v
  | .dispReg, [.disp v a, .reg b] => regWf a && regWf b && litWf 6 v
  | .regN8, [.reg r, .lit v] => regWf r && litWf 8 v
  | .n8Reg, [.lit v, .reg a] => litWf 8 v && regWf a
  | _, _ => false

/-- A line an assembler accepts. -/
def AsmLine.wf (l : AsmLine) : Bool := l.name.mnemonic.form.accepts l.operands

end Sys2Proof
end

