-- ==== Sys2Proof/Decode.lean ====
section
/-! DEFINITION. Decoding (30_encoding.md sections 2 to 5), total on any bytes and rejecting by name; then the encoder,
the opcode table's masks, and the assembler of section 6. -/

namespace Sys2Proof

/-- Why bytes are no instruction. The last three are the unassigned words of R84 (a), (b), (c). -/
inductive Reject where
  | tooShort                            -- fewer than the two bytes of an instruction (R70)
  | unassignedFunction (w : Word)       -- opcode 1 with f = 2, 6 or 7
  | unassignedOpcodeB (w : Word)        -- opcode 0xB
  | futureExtension (w : Word)          -- opcodes 0xC to 0xF
deriving DecidableEq, Repr

/-- What decoding answers: an instruction, or why there is none. -/
inductive Decoded (α : Type) where
  | ok (x : α)
  | rejected (r : Reject)
deriving DecidableEq, Repr

/-- The operation code c, bits 15 to 12 (R71). -/
def opcodeField (w : Word) : BitVec 4 := w.extractLsb' 12 4

/-- The register field in bits 11 to 9 (R71): a, or d in MOVI, MOVHI and IN. -/
def regField9 (w : Word) : RegNum := (w.extractLsb' 9 3).toFin

/-- The register field in bits 8 to 6 (R72, R73): b in format 3R, ST and STB; d in ADDI, LD, LDB and JALR. -/
def regField6 (w : Word) : RegNum := (w.extractLsb' 6 3).toFin

/-- The register field in bits 5 to 3 (R72): d in format 3R. -/
def regField3 (w : Word) : RegNum := (w.extractLsb' 3 3).toFin

/-- The function field f, bits 2 to 0 (R72). -/
def functionField (w : Word) : BitVec 3 := w.extractLsb' 0 3

/-- The field e, bit 8 (R74). -/
def extensionField (w : Word) : Bool := w.getLsbD 8

/-- N6, bits 5 to 0 (R75). -/
def n6Field (w : Word) : BitVec 6 := w.extractLsb' 0 6

/-- N8, bits 7 to 0 (R76). -/
def n8Field (w : Word) : BitVec 8 := w.extractLsb' 0 8

/-- Opcode 0 by function (R79). NOT ignores its b field (R86). -/
def decodeLogic (w : Word) : Decoded Instr :=
  match (functionField w).toNat with
  | 0 => .ok (.and (regField3 w) (regField9 w) (regField6 w))
  | 1 => .ok (.or (regField3 w) (regField9 w) (regField6 w))
  | 2 => .ok (.xor (regField3 w) (regField9 w) (regField6 w))
  | 3 => .ok (.not (regField3 w) (regField9 w))
  | 4 => .ok (.add (regField3 w) (regField9 w) (regField6 w))
  | 5 => .ok (.sub (regField3 w) (regField9 w) (regField6 w))
  | 6 => .ok (.sha (regField3 w) (regField9 w) (regField6 w))
  | _ => .ok (.shl (regField3 w) (regField9 w) (regField6 w))

/-- Opcode 1 by function (R80): 2, 6 and 7 are unassigned. -/
def decodeCompare (w : Word) : Decoded Instr :=
  match (functionField w).toNat with
  | 0 => .ok (.cmplt (regField3 w) (regField9 w) (regField6 w))
  | 1 => .ok (.cmple (regField3 w) (regField9 w) (regField6 w))
  | 3 => .ok (.cmpeq (regField3 w) (regField9 w) (regField6 w))
  | 4 => .ok (.cmpltu (regField3 w) (regField9 w) (regField6 w))
  | 5 => .ok (.cmpleu (regField3 w) (regField9 w) (regField6 w))
  | _ => .rejected (.unassignedFunction w)

/-- The instruction a word spells: by c first, then by f or e where the opcode has one (R78 to R82). JALR ignores bits
5 to 0 (R86). -/
def decodeWord (w : Word) : Decoded Instr :=
  match (opcodeField w).toNat with
  | 0 => decodeLogic w
  | 1 => decodeCompare w
  | 2 => .ok (.addi (regField6 w) (regField9 w) (n6Field w))
  | 3 => .ok (.ld (regField6 w) (regField9 w) (n6Field w))
  | 4 => .ok (.st (regField9 w) (regField6 w) (n6Field w))
  | 5 => .ok (.ldb (regField6 w) (regField9 w) (n6Field w))
  | 6 => .ok (.stb (regField9 w) (regField6 w) (n6Field w))
  | 7 => .ok (.jalr (regField6 w) (regField9 w))
  | 8 => if extensionField w then .ok (.bnz (regField9 w) (n8Field w)) else .ok (.bz (regField9 w) (n8Field w))
  | 9 => if extensionField w then .ok (.movhi (regField9 w) (n8Field w)) else .ok (.movi (regField9 w) (n8Field w))
  | 10 => if extensionField w then .ok (.out (n8Field w) (regField9 w)) else .ok (.inp (regField9 w) (n8Field w))
  | 11 => .rejected (.unassignedOpcodeB w)
  | _ => .rejected (.futureExtension w)

/-- The word two bytes spell, the byte of the lower address first: little endian (20_memory.md R41, R70). -/
def wordOfBytes (low high : Byte) : Word := high ++ low

/-- Decode the first instruction of a list of bytes and give the bytes after it. -/
def decode : List Byte → Decoded (Instr × List Byte)
  | low :: high :: rest =>
    match decodeWord (wordOfBytes low high) with
    | .ok i => .ok (i, rest)
    | .rejected r => .rejected r
  | _ => .rejected .tooShort

/-! The encoder. -/

/-- Format 3R, `cccc aaa bbb ddd fff` (R72). -/
def word3R (c : BitVec 4) (a b d : RegNum) (f : BitVec 3) : Word :=
  c ++ (BitVec.ofFin a : BitVec 3) ++ (BitVec.ofFin b : BitVec 3) ++ (BitVec.ofFin d : BitVec 3) ++ f

/-- Format 2R, `cccc aaa rrr nnnnnn`, where `r` is d or b (R73). -/
def word2R (c : BitVec 4) (a r : RegNum) (n : BitVec 6) : Word :=
  c ++ (BitVec.ofFin a : BitVec 3) ++ (BitVec.ofFin r : BitVec 3) ++ n

/-- Format 1R, `cccc rrr e nnnnnnnn`, where `r` is a or d (R74). -/
def word1R (c : BitVec 4) (r : RegNum) (e : Bool) (n : BitVec 8) : Word :=
  c ++ (BitVec.ofFin r : BitVec 3) ++ BitVec.ofBool e ++ n

/-- The word of an instruction (R83), with zeros in the unused fields of NOT and JALR (R90). -/
def encode : Instr → Word
  | .and d a b => word3R 0 a b d 0
  | .or d a b => word3R 0 a b d 1
  | .xor d a b => word3R 0 a b d 2
  | .not d a => word3R 0 a 0 d 3
  | .add d a b => word3R 0 a b d 4
  | .sub d a b => word3R 0 a b d 5
  | .sha d a b => word3R 0 a b d 6
  | .shl d a b => word3R 0 a b d 7
  | .cmplt d a b => word3R 1 a b d 0
  | .cmple d a b => word3R 1 a b d 1
  | .cmpeq d a b => word3R 1 a b d 3
  | .cmpltu d a b => word3R 1 a b d 4
  | .cmpleu d a b => word3R 1 a b d 5
  | .addi d a n => word2R 2 a d n
  | .ld d a n => word2R 3 a d n
  | .st a b n => word2R 4 a b n
  | .ldb d a n => word2R 5 a d n
  | .stb a b n => word2R 6 a b n
  | .jalr d a => word2R 7 a d 0
  | .bz a n => word1R 8 a false n
  | .bnz a n => word1R 8 a true n
  | .movi d n => word1R 9 d false n
  | .movhi d n => word1R 9 d true n
  | .inp d n => word1R 10 d false n
  | .out n a => word1R 10 a true n

/-- The two bytes of an instruction in memory, the lower address first (R70). -/
def encodeBytes (i : Instr) : List Byte := [(encode i).extractLsb' 0 8, (encode i).extractLsb' 8 8]

/-- The column "mask" of R83: the bits that decide the instruction. -/
def Mnemonic.mask : Mnemonic → Word
  | .and | .or | .xor | .not | .add | .sub | .sha | .shl => 0xF007#16
  | .cmplt | .cmple | .cmpeq | .cmpltu | .cmpleu => 0xF007#16
  | .addi | .ld | .st | .ldb | .stb | .jalr => 0xF000#16
  | .bz | .bnz | .movi | .movhi | .inp | .out => 0xF100#16

/-- The column "match" of R83: the value of those bits. -/
def Mnemonic.matchBits : Mnemonic → Word
  | .and => 0x0000#16
  | .or => 0x0001#16
  | .xor => 0x0002#16
  | .not => 0x0003#16
  | .add => 0x0004#16
  | .sub => 0x0005#16
  | .sha => 0x0006#16
  | .shl => 0x0007#16
  | .cmplt => 0x1000#16
  | .cmple => 0x1001#16
  | .cmpeq => 0x1003#16
  | .cmpltu => 0x1004#16
  | .cmpleu => 0x1005#16
  | .addi => 0x2000#16
  | .ld => 0x3000#16
  | .st => 0x4000#16
  | .ldb => 0x5000#16
  | .stb => 0x6000#16
  | .jalr => 0x7000#16
  | .bz => 0x8000#16
  | .bnz => 0x8100#16
  | .movi => 0x9000#16
  | .movhi => 0x9100#16
  | .inp => 0xA000#16
  | .out => 0xA100#16

/-- The host's view of the decoder: the bits of a word, numbered as spec/opcode_table.json numbers them, laid out as the
hardware stores them (R70) and given to `decode`. Bits above `nbits` are 0. -/
def decodeTableWord (nbits w : Nat) : Option Instr :=
  let word : Word := BitVec.ofNat 16 (w % 2 ^ nbits)
  match decode [word.extractLsb' 0 8, word.extractLsb' 8 8] with
  | .ok (i, _) => some i
  | .rejected _ => none

/-! The assembler (R88 to R91). -/

/-- The register an operand `R<k>` names (R88). -/
def asmReg (k : Nat) : Option RegNum := if h : k < 8 then some ⟨k, h⟩ else none

/-- The field of a literal `v` accepted for an `n`-bit field: `v mod 2^n` (R89). -/
def asmLit (n : Nat) (v : Int) : Option (BitVec n) := if litWf n v then some (BitVec.ofInt n v) else none

/-- The instruction a three-register line spells. -/
def asm3 (f : RegNum → RegNum → RegNum → Instr) : List AsmOperand → Option Instr
  | [.reg d, .reg a, .reg b] => do return f (← asmReg d) (← asmReg a) (← asmReg b)
  | _ => none

/-- The instruction a two-register line spells. -/
def asm2 (f : RegNum → RegNum → Instr) : List AsmOperand → Option Instr
  | [.reg d, .reg a] => do return f (← asmReg d) (← asmReg a)
  | _ => none

/-- The instruction a line of the form `OP Rd, N6(Ra)` spells. -/
def asmLoad (f : RegNum → RegNum → BitVec 6 → Instr) : List AsmOperand → Option Instr
  | [.reg d, .disp v a] => do return f (← asmReg d) (← asmReg a) (← asmLit 6 v)
  | _ => none

/-- The instruction a line of the form `OP N6(Ra), Rb` spells. -/
def asmStore (f : RegNum → RegNum → BitVec 6 → Instr) : List AsmOperand → Option Instr
  | [.disp v a, .reg b] => do return f (← asmReg a) (← asmReg b) (← asmLit 6 v)
  | _ => none

/-- The instruction a line of the form `OP R, N8` spells. -/
def asm1 (f : RegNum → BitVec 8 → Instr) : List AsmOperand → Option Instr
  | [.reg r, .lit v] => do return f (← asmReg r) (← asmLit 8 v)
  | _ => none

/-- The instruction of the line `ADDI Rd, Ra, N6`. -/
def asmAddi : List AsmOperand → Option Instr
  | [.reg d, .reg a, .lit v] => do return .addi (← asmReg d) (← asmReg a) (← asmLit 6 v)
  | _ => none

/-- The instruction of the line `OUT N8, Ra`: the port first (R88). -/
def asmOut : List AsmOperand → Option Instr
  | [.lit v, .reg a] => do return .out (← asmLit 8 v) (← asmReg a)
  | _ => none

/-- The instruction an assembler line spells, none where the line is not accepted (R88 to R91). -/
def assemble (l : AsmLine) : Option Instr :=
  match l.name.mnemonic with
  | .and => asm3 .and l.operands
  | .or => asm3 .or l.operands
  | .xor => asm3 .xor l.operands
  | .not => asm2 .not l.operands
  | .add => asm3 .add l.operands
  | .sub => asm3 .sub l.operands
  | .sha => asm3 .sha l.operands
  | .shl => asm3 .shl l.operands
  | .cmplt => asm3 .cmplt l.operands
  | .cmple => asm3 .cmple l.operands
  | .cmpeq => asm3 .cmpeq l.operands
  | .cmpltu => asm3 .cmpltu l.operands
  | .cmpleu => asm3 .cmpleu l.operands
  | .addi => asmAddi l.operands
  | .ld => asmLoad .ld l.operands
  | .st => asmStore .st l.operands
  | .ldb => asmLoad .ldb l.operands
  | .stb => asmStore .stb l.operands
  | .jalr => asm2 .jalr l.operands
  | .bz => asm1 .bz l.operands
  | .bnz => asm1 .bnz l.operands
  | .movi => asm1 .movi l.operands
  | .movhi => asm1 .movhi l.operands
  | .inp => asm1 .inp l.operands
  | .out => asmOut l.operands

/-- The operands of an instruction as the "Assembler" column writes them (R88). Signed immediates are written signed;
MOVHI's byte and a port number are written unsigned (R76). -/
def Instr.asmOperands : Instr → List AsmOperand
  | .and d a b | .or d a b | .xor d a b | .add d a b | .sub d a b | .sha d a b | .shl d a b
  | .cmplt d a b | .cmple d a b | .cmpeq d a b | .cmpltu d a b | .cmpleu d a b => [.reg d, .reg a, .reg b]
  | .not d a | .jalr d a => [.reg d, .reg a]
  | .addi d a n => [.reg d, .reg a, .lit n.toInt]
  | .ld d a n | .ldb d a n => [.reg d, .disp n.toInt a]
  | .st a b n | .stb a b n => [.disp n.toInt a, .reg b]
  | .bz r n | .bnz r n | .movi r n => [.reg r, .lit n.toInt]
  | .movhi r n | .inp r n => [.reg r, .lit n.toNat]
  | .out n a => [.lit n.toNat, .reg a]

/-- The assembler line of an instruction (R88). -/
def disassemble (i : Instr) : AsmLine := { name := .op i.mnemonic, operands := i.asmOperands }

/-- The value of a digit in a base up to 16, none where the character is no digit of it. That a hexadecimal digit above 9 may
be written as a lower-case or a capital letter is a DESIGN CHOICE (log entry 11): R89 gives only `0x` before
the digits, and the source says nothing on case (91_not_in_source.md N15). -/
def digitValue (base : Nat) (c : Char) : Option Nat :=
  let v :=
    if '0' ≤ c ∧ c ≤ '9' then c.toNat - 48
    else if 'a' ≤ c ∧ c ≤ 'f' then c.toNat - 87
    else if 'A' ≤ c ∧ c ≤ 'F' then c.toNat - 55
    else 16
  if v < base then some v else none

/-- The number a list of digits spells after the value `acc`, none where a character is no digit. -/
def digitsValue (base : Nat) : Nat → List Char → Option Nat
  | acc, [] => some acc
  | acc, c :: cs =>
    match digitValue base c with
    | some v => digitsValue base (acc * base + v) cs
    | none => none

/-- The value a literal spells (R89): decimal digits with an optional leading `-`, or `0x`, its `x` lower-case as R89 writes it,
and hexadecimal digits of either case (log entry 11). -/
def readLiteral : List Char → Option Int
  | '0' :: 'x' :: c :: cs => (digitsValue 16 0 (c :: cs)).map Int.ofNat
  | '-' :: c :: cs => (digitsValue 10 0 (c :: cs)).map fun v => -(v : Int)
  | c :: cs => (digitsValue 10 0 (c :: cs)).map Int.ofNat
  | [] => none

/-- The mnemonics as they are written (R88), and the two spellings of R91. -/
def asmNames : List (List Char × AsmName) :=
  [(['A', 'N', 'D'], .op .and), (['O', 'R'], .op .or), (['X', 'O', 'R'], .op .xor), (['N', 'O', 'T'], .op .not),
   (['A', 'D', 'D'], .op .add), (['S', 'U', 'B'], .op .sub), (['S', 'H', 'A'], .op .sha), (['S', 'H', 'L'], .op .shl)] ++
  [(['C', 'M', 'P', 'L', 'T'], .op .cmplt), (['C', 'M', 'P', 'L', 'E'], .op .cmple),
   (['C', 'M', 'P', 'E', 'Q'], .op .cmpeq), (['C', 'M', 'P', 'L', 'T', 'U'], .op .cmpltu),
   (['C', 'M', 'P', 'L', 'E', 'U'], .op .cmpleu), (['C', 'M', 'P', 'L'], .cmpl), (['C', 'M', 'P', 'L', 'U'], .cmplu)] ++
  [(['A', 'D', 'D', 'I'], .op .addi), (['L', 'D'], .op .ld), (['S', 'T'], .op .st), (['L', 'D', 'B'], .op .ldb),
   (['S', 'T', 'B'], .op .stb), (['J', 'A', 'L', 'R'], .op .jalr), (['B', 'Z'], .op .bz), (['B', 'N', 'Z'], .op .bnz)] ++
  [(['M', 'O', 'V', 'I'], .op .movi), (['M', 'O', 'V', 'H', 'I'], .op .movhi), (['I', 'N'], .op .inp),
   (['O', 'U', 'T'], .op .out)]

/-- The number of a register written `R0` to `R7` (R88). -/
def readRegister : List Char → Option Nat
  | ['R', c] =>
    match digitValue 10 c with
    | some k => if regWf k then some k else none
    | none => none
  | _ => none

/-- The operand a piece of a line writes (R88): a register, a literal, or a literal and a base register in parentheses. -/
def readOperand (cs : List Char) : Option AsmOperand :=
  match readRegister cs with
  | some k => some (.reg k)
  | none =>
    match cs.span (fun c => c != '(') with
    | (v, []) => (readLiteral v).map .lit
    | (v, [_, r, k, ')']) => do return .disp (← readLiteral v) (← readRegister [r, k])
    | _ => none

/-- The pieces of a line between commas. -/
def splitCommas : List Char → List (List Char)
  | [] => [[]]
  | c :: cs =>
    if c = ',' then [] :: splitCommas cs
    else
      match splitCommas cs with
      | p :: ps => (c :: p) :: ps
      | [] => [[c]]

/-- The assembler line a text writes (R88): the mnemonic, a space, and the operands separated by commas. That other spaces do
not count, and that mnemonics and the letter R are capitals, is a DESIGN CHOICE (log entry 11). -/
def readLine (text : List Char) : Option AsmLine :=
  let (m, rest) := text.span (fun c => c != ' ')
  match asmNames.find? (fun e => e.1 == m) with
  | some (_, name) =>
    match (splitCommas (rest.filter (fun c => c != ' '))).mapM readOperand with
    | some operands => some { name := name, operands := operands }
    | none => none
  | none => none

/-- The instruction a line of text spells. -/
def assembleText (text : List Char) : Option Instr := (readLine text).bind assemble

end Sys2Proof
end

