-- ==== Sys2Proof/Machine/State.lean ====
section
/-! DEFINITION. The state of the machine, why a step can stop, and the state right after reset. The spec reads its list of
state as exhaustive (10_state.md R20): no flag, control register, saved register or hidden state exists (R28 to R31). -/

namespace Sys2Proof.Machine

/-- The memory of 2^16 bytes (10_state.md R20) as (address, byte) pairs: addresses strictly rising, below 2^16, and no
pair whose byte is what an unlisted address reads as (`Memory.unlisted`). -/
abbrev Memory := List Host.Cell

/-- The whole state of the computer (10_state.md R20). The input ports are no state but an oracle (44_input_output.md R152). -/
structure State where
  /-- The program counter: at the start of a step, the address of the instruction about to be fetched (R24). -/
  pc : Word
  /-- The general registers R0 to R7; none is hard-wired (R21, R22). -/
  regs : Vector Word 8
  /-- The memory of data and instructions (R32). -/
  mem : Memory
  /-- The output ports: each holds the last value written to it (44_input_output.md R154). -/
  output : Vector Word 256
  /-- The I/O trace, oldest event first (R154). -/
  trace : List IoEvent
deriving DecidableEq, Repr

/-- Why the machine stops with a fault. -/
inductive Fault where
  /-- Raised by `step` alone, for a fetched word that spells no instruction (30_encoding.md R85, 60_exceptions.md R171).
  Safe: the spec gives no meaning to such a word, so no claim can be proved of what follows. -/
  | reservedInstruction (w : Word)
deriving DecidableEq, Repr

/-- Why the model gives no meaning. -/
inductive Refusal where
  /-- Raised by an arm of `exec` whose instruction has no meaning yet; no arm raises it in this model. Safe. -/
  | notModelled (mnemonic : String)
  /-- Raised by `step` and by `State.launch` for an odd program counter (70_reset_and_hazards.md R191,
  93_implementation_defined.md U18). No instruction makes one (10_state.md R27). Safe: nothing follows it. -/
  | oddPc (pc : Word)
deriving DecidableEq, Repr

/-- What a meaning answers. -/
abbrev Result := Host.Outcome State Fault Refusal

/-- The state right after reset: the default RESET_PC (70_reset_and_hazards.md R191), the empty trace (R194), memory with
nothing listed; and zero in the registers and output ports, which the spec leaves arbitrary (R192, R194).
DESIGN CHOICE (log entries 1 to 4), unsafe for a claim about runs from this one state: `State.launch` gives the spec's
launch state for every value of the parameters. -/
def State.reset : State :=
  { pc := 0x0000#16
    regs := Vector.replicate 8 0x0000#16
    mem := []
    output := Vector.replicate 256 0x0000#16
    trace := [] }

end Sys2Proof.Machine
end

