-- ==== Sys2Proof/Machine/Ops.lean ====
section
/-! DEFINITION. The named operations over memory, registers, ports, the program counter and the launch. SISA takes no
exception and returns from none (60_exceptions.md R170, R172, R175), so neither operation exists here. -/

namespace Sys2Proof.Machine

/-! Memory: one flat space of bytes without side effects (20_memory.md R50). -/

/-- What an address that is not listed reads as. DESIGN CHOICE (log entry 3), unsafe for claims from State.reset: the spec
says any value, fixed until written (70_reset_and_hazards.md R193). -/
def Memory.unlisted : Byte := 0x00#8

/-- The byte at an address. -/
def Memory.read : Memory → Nat → Byte
  | [], _ => Memory.unlisted
  | (k, b) :: m, a => if k = a then b else Memory.read m a

/-- Put a pair in its place in a rising list. -/
def Memory.insert (a : Nat) (v : Byte) : Memory → Memory
  | [] => [(a, v)]
  | (k, b) :: m => if a < k then (a, v) :: (k, b) :: m else (k, b) :: Memory.insert a v m

/-- Drop what is listed for an address. -/
def Memory.erase (a : Nat) : Memory → Memory
  | [] => []
  | (k, b) :: m => if k = a then Memory.erase a m else (k, b) :: Memory.erase a m

/-- Write a byte. A byte that an unlisted address reads as is not listed. -/
def Memory.write (m : Memory) (a : Nat) (v : Byte) : Memory :=
  if v = Memory.unlisted then Memory.erase a m else Memory.insert a v (Memory.erase a m)

/-- The canonical form of a memory. -/
abbrev Memory.wf (m : Memory) : Prop :=
  m.Pairwise (fun x y => x.1 < y.1) ∧ ∀ c ∈ m, c.1 < 65536 ∧ c.2 ≠ Memory.unlisted

/-- The byte at a 16-bit address: `MemRead(addr, 1)` (00_scope.md R10). -/
def State.byte (s : State) (a : Word) : Byte := Memory.read s.mem a.toNat

/-- The word at an even address, little endian: `MemRead(addr, 2)` is `Mem[addr+1] : Mem[addr]` (00_scope.md R10,
20_memory.md R40). -/
def State.word (s : State) (a : Word) : Word := s.byte (a + 1#16) ++ s.byte a

/-- `MemWrite(addr, 1, v)` (00_scope.md R10). -/
def State.setByte (s : State) (a : Word) (v : Byte) : State := { s with mem := Memory.write s.mem a.toNat v }

/-- `MemWrite(addr, 2, v)` at an even address: bits 7 to 0 at `addr`, bits 15 to 8 at `addr+1` (R10, R40). -/
def State.setWord (s : State) (a : Word) (v : Word) : State :=
  (s.setByte a (v.extractLsb' 0 8)).setByte (a + 1#16) (v.extractLsb' 8 8)

/-! Registers: every number names an ordinary register (10_state.md R22). -/

/-- `x[k]` (00_scope.md R10). -/
def State.reg (s : State) (k : RegNum) : Word := s.regs[k.val]

/-- `x[k] <- v` (R10). -/
def State.setReg (s : State) (k : RegNum) (v : Word) : State := { s with regs := s.regs.set k.val v }

/-! The program counter. -/

/-- `pc <- t` (R10). -/
def State.setPc (s : State) (t : Word) : State := { s with pc := t }

/-- The address of the next instruction, the source's "PC actualizado": `pc + 2`, modulo 2^16 (10_state.md R24, R26). -/
def State.nextPc (s : State) : Word := s.pc + 2#16

/-- `pc <- pc + 2` (00_scope.md R12). -/
def State.advance (s : State) : State := s.setPc s.nextPc

/-! Ports and the I/O trace (44_input_output.md R152 to R154). -/

/-- The value an output port holds. -/
def State.out (s : State) (p : Port) : Word := s.output[p.val]

/-- What input port `p` presents now: the oracle's answer after the I/O events so far (R152). -/
def State.inputNow (s : State) (p : Port) : Word := Config.inputOracle p s.trace

/-- Append an event to the trace (R154). -/
def State.record (s : State) (e : IoEvent) : State := { s with trace := s.trace ++ [e] }

/-- `Out(p) <- v`: the port holds `v` and the event joins the trace (R153, R154). -/
def State.setOut (s : State) (p : Port) (v : Word) : State :=
  { s with output := s.output.set p.val v }.record (.output p v)

/-! Shapes many instructions share. -/

/-- `x[d] <- v; pc <- pc + 2`: how every instruction but the stores, OUT and the control transfers ends (R12, R23). -/
def State.finishReg (s : State) (d : RegNum) (v : Word) : State := (s.setReg d v).advance

/-- What an IN does once port `p` has presented `v` (R151, R152): the event, then `x[d] <- v; pc <- pc + 2`. -/
def State.receive (s : State) (d : RegNum) (p : Port) (v : Word) : State := (s.record (.input p v)).finishReg d v

/-! Fetch. -/

/-- The two bytes at the program counter, the lower address first (20_memory.md R41). -/
def State.fetchBytes (s : State) : List Byte := [s.byte s.pc, s.byte (s.pc + 1#16)]

/-- The instruction word at the program counter (R41, R195). -/
def State.fetchWord (s : State) : Word := s.word s.pc

/-! The launch (70_reset_and_hazards.md R190 to R194). -/

/-- The memory a launch starts with: its bytes placed in order (R193). -/
def loadImage (image : List (Word × Byte)) : Memory :=
  image.foldl (fun m c => Memory.write m c.1.toNat c.2) []

/-- The launch state of given parameters: an odd RESET_PC is refused (R191), the trace is empty (R194). -/
def State.launch (p : Launch) : Result :=
  if p.wf then
    .next { pc := p.resetPc, regs := p.initRegs, mem := loadImage p.initMem, output := p.initOut, trace := [] }
  else .refused (.oddPc p.resetPc)

end Sys2Proof.Machine
end

