-- ==== Sys2Proof/Machine/Operands.lean ====
section
/-! DEFINITION. Every operand form of the spec: immediates, addresses, the shift amount, byte fields, port numbers and
branch targets, and the two shifts. -/

namespace Sys2Proof.Machine

/-- N6 as an operand: `sext_16(N6)`, not scaled (30_encoding.md R75). -/
def sext6 (n : BitVec 6) : Word := n.signExtend 16

/-- N8 as a signed operand: `sext_16(N8)` (R76). -/
def sext8 (n : BitVec 8) : Word := n.signExtend 16

/-- A byte loaded by LDB: `sext_16(byte)` (43_load_store.md R143). -/
def sextByte (b : Byte) : Word := b.signExtend 16

/-- The computed address `ea` of a load or store, modulo 2^16 (R140, 20_memory.md R47). -/
def State.ea (s : State) (a : RegNum) (n : BitVec 6) : Word := s.reg a + sext6 n

/-- A value with bit 0 cleared: the address of a word access (20_memory.md R43) and the target of JALR
(45_control_transfer.md R163). -/
def clearBit0 (v : Word) : Word := v &&& 0xFFFE#16

/-- The address of the word access with base `a` and displacement `n` (R43, R44). -/
def State.wordAddr (s : State) (a : RegNum) (n : BitVec 6) : Word := clearBit0 (s.ea a n)

/-- The low byte of a word, the field <7..0> (R144). -/
def lowByte (v : Word) : Byte := v.extractLsb' 0 8

/-- A word with its field <15..8> replaced by N8 (42_move_immediate.md R132). -/
def withHighByte (v : Word) (n : BitVec 8) : Word := n ++ lowByte v

/-- The port number `uint(N8)` (44_input_output.md R150). -/
def portOf (n : BitVec 8) : Port := n.toFin

/-- Where a taken branch goes: `pc + 2 + (sext_16(N8) << 1)`, modulo 2^16 (45_control_transfer.md R161, R164). -/
def State.branchTarget (s : State) (n : BitVec 8) : Word := s.nextPc + (sext8 n <<< 1)

/-- The shift amount `k = sint_5(v[4:0])`, -16 to +15 (40_arithmetic_logic.md R107). -/
def shiftAmount (v : Word) : Int := (v.extractLsb' 0 5).toInt

/-- SHA's result (R108): left for k >= 0, else the floor of the signed quotient by 2^(-k). The spec decides the floor
(92_eei_decisions.md D15). UNVERIFIED, log entry 7. -/
def shiftArithmetic (v : Word) (k : Int) : Word :=
  if 0 ≤ k then v <<< k.toNat else BitVec.ofInt 16 (v.toInt.fdiv (2 ^ (-k).toNat))

/-- SHL's result (R109): left for k >= 0, else the floor of the unsigned quotient by 2^(-k). -/
def shiftLogic (v : Word) (k : Int) : Word :=
  if 0 ≤ k then v <<< k.toNat else BitVec.ofNat 16 (v.toNat / 2 ^ (-k).toNat)

end Sys2Proof.Machine
end

