-- ==== Sys2Proof/Machine/Flags.lean ====
section
/-! DEFINITION. SISA has no flags (10_state.md R28): a compare writes its boolean into a general register
(41_compare.md R120), and a branch tests a register against zero (45_control_transfer.md R160). These are the relations. -/

namespace Sys2Proof.Machine

/-- The word a compare writes: 1 for true, 0 for false (R120). -/
def boolWord (c : Bool) : Word := if c then 0x0001#16 else 0x0000#16

/-- `sint_16(x) < sint_16(y)` (R121). -/
def ltSigned (x y : Word) : Bool := decide (x.toInt < y.toInt)

/-- `sint_16(x) <= sint_16(y)` (R122, 90_conflicts.md C2). -/
def leSigned (x y : Word) : Bool := decide (x.toInt ≤ y.toInt)

/-- All 16 bits equal (R123). -/
def eqWord (x y : Word) : Bool := decide (x = y)

/-- `uint(x) < uint(y)` (R124). -/
def ltUnsigned (x y : Word) : Bool := decide (x.toNat < y.toNat)

/-- `uint(x) <= uint(y)` (R125, 90_conflicts.md C2). -/
def leUnsigned (x y : Word) : Bool := decide (x.toNat ≤ y.toNat)

/-- The test of BZ and, negated, of BNZ: all 16 bits are 0 (45_control_transfer.md R160). -/
def isZero (x : Word) : Bool := decide (x = 0x0000#16)

end Sys2Proof.Machine
end

