-- ==== Sys2Proof/Machine/Arithmetic.lean ====
section
/-! DEFINITION. The arithmetic and logic instructions (40_arithmetic_logic.md). Each reads its sources from the state
before it writes Rd (00_scope.md R11). -/

namespace Sys2Proof.Machine

/-- AND (R101). -/
def execAnd (d a b : RegNum) (s : State) : Result := .next (s.finishReg d (s.reg a &&& s.reg b))

/-- OR (R102). -/
def execOr (d a b : RegNum) (s : State) : Result := .next (s.finishReg d (s.reg a ||| s.reg b))

/-- XOR (R103). -/
def execXor (d a b : RegNum) (s : State) : Result := .next (s.finishReg d (s.reg a ^^^ s.reg b))

/-- NOT (R104). -/
def execNot (d a : RegNum) (s : State) : Result := .next (s.finishReg d (~~~(s.reg a)))

/-- ADD (R105), modulo 2^16. -/
def execAdd (d a b : RegNum) (s : State) : Result := .next (s.finishReg d (s.reg a + s.reg b))

/-- SUB (R106), modulo 2^16. -/
def execSub (d a b : RegNum) (s : State) : Result := .next (s.finishReg d (s.reg a - s.reg b))

/-- SHA (R107, R108). -/
def execSha (d a b : RegNum) (s : State) : Result :=
  .next (s.finishReg d (shiftArithmetic (s.reg a) (shiftAmount (s.reg b))))

/-- SHL (R107, R109). -/
def execShl (d a b : RegNum) (s : State) : Result :=
  .next (s.finishReg d (shiftLogic (s.reg a) (shiftAmount (s.reg b))))

/-- ADDI (R110), modulo 2^16. -/
def execAddi (d a : RegNum) (n : BitVec 6) (s : State) : Result := .next (s.finishReg d (s.reg a + sext6 n))

end Sys2Proof.Machine
end

