-- ==== Sys2Proof/Machine/Compare.lean ====
section
/-! DEFINITION. The comparison instructions (41_compare.md): Ra is the left operand, Rb the right. -/

namespace Sys2Proof.Machine

/-- CMPLT (R121). -/
def execCmplt (d a b : RegNum) (s : State) : Result :=
  .next (s.finishReg d (boolWord (ltSigned (s.reg a) (s.reg b))))

/-- CMPLE (R122). -/
def execCmple (d a b : RegNum) (s : State) : Result :=
  .next (s.finishReg d (boolWord (leSigned (s.reg a) (s.reg b))))

/-- CMPEQ (R123). -/
def execCmpeq (d a b : RegNum) (s : State) : Result :=
  .next (s.finishReg d (boolWord (eqWord (s.reg a) (s.reg b))))

/-- CMPLTU (R124). -/
def execCmpltu (d a b : RegNum) (s : State) : Result :=
  .next (s.finishReg d (boolWord (ltUnsigned (s.reg a) (s.reg b))))

/-- CMPLEU (R125). -/
def execCmpleu (d a b : RegNum) (s : State) : Result :=
  .next (s.finishReg d (boolWord (leUnsigned (s.reg a) (s.reg b))))

end Sys2Proof.Machine
end

