-- ==== Sys2Proof/Machine/Control.lean ====
section
/-! DEFINITION. The control transfers (45_control_transfer.md). -/

namespace Sys2Proof.Machine

/-- BZ (R161). -/
def execBz (a : RegNum) (n : BitVec 8) (s : State) : Result :=
  .next (s.setPc (if isZero (s.reg a) then s.branchTarget n else s.nextPc))

/-- BNZ (R162). -/
def execBnz (a : RegNum) (n : BitVec 8) (s : State) : Result :=
  .next (s.setPc (if isZero (s.reg a) then s.nextPc else s.branchTarget n))

/-- JALR (R163): the target is read before Rd is written. -/
def execJalr (d a : RegNum) (s : State) : Result :=
  .next ((s.setReg d s.nextPc).setPc (clearBit0 (s.reg a)))

end Sys2Proof.Machine
end

