-- ==== Sys2Proof/Machine/InputOutput.lean ====
section
/-! DEFINITION. Input and output (44_input_output.md). -/

namespace Sys2Proof.Machine

/-- IN (R151): the oracle answers (R152). -/
def execInp (d : RegNum) (n : BitVec 8) (s : State) : Result :=
  .next (s.receive d (portOf n) (s.inputNow (portOf n)))

/-- OUT (R153). -/
def execOut (n : BitVec 8) (a : RegNum) (s : State) : Result := .next (s.setOut (portOf n) (s.reg a)).advance

end Sys2Proof.Machine
end

