-- ==== Sys2Proof/Machine/LoadStore.lean ====
section
/-! DEFINITION. The loads and stores (43_load_store.md). -/

namespace Sys2Proof.Machine

/-- LD (R141). -/
def execLd (d a : RegNum) (n : BitVec 6) (s : State) : Result := .next (s.finishReg d (s.word (s.wordAddr a n)))

/-- ST (R142). -/
def execSt (a b : RegNum) (n : BitVec 6) (s : State) : Result :=
  .next (s.setWord (s.wordAddr a n) (s.reg b)).advance

/-- LDB (R143): the byte is always sign-extended. -/
def execLdb (d a : RegNum) (n : BitVec 6) (s : State) : Result :=
  .next (s.finishReg d (sextByte (s.byte (s.ea a n))))

/-- STB (R144): the low byte of Rb. -/
def execStb (a b : RegNum) (n : BitVec 6) (s : State) : Result :=
  .next (s.setByte (s.ea a n) (lowByte (s.reg b))).advance

end Sys2Proof.Machine
end

