-- ==== Sys2Proof/Machine/MoveImmediate.lean ====
section
/-! DEFINITION. The immediate moves (42_move_immediate.md). -/

namespace Sys2Proof.Machine

/-- MOVI (R131). -/
def execMovi (d : RegNum) (n : BitVec 8) (s : State) : Result := .next (s.finishReg d (sext8 n))

/-- MOVHI (R132): the low byte of Rd keeps its value. -/
def execMovhi (d : RegNum) (n : BitVec 8) (s : State) : Result :=
  .next (s.finishReg d (withHighByte (s.reg d) n))

end Sys2Proof.Machine
end

