-- ==== Sys2Proof/Machine/Dispatch.lean ====
section
/-! DEFINITION. What each instruction does: one arm per constructor of Instr, one direct call of its meaning. -/

namespace Sys2Proof.Machine

def exec (i : Instr) (s : State) : Host.Outcome State Fault Refusal :=
  match i with
  | .and d a b => Sys2Proof.Machine.execAnd d a b s
  | .or d a b => Sys2Proof.Machine.execOr d a b s
  | .xor d a b => Sys2Proof.Machine.execXor d a b s
  | .not d a => Sys2Proof.Machine.execNot d a s
  | .add d a b => Sys2Proof.Machine.execAdd d a b s
  | .sub d a b => Sys2Proof.Machine.execSub d a b s
  | .sha d a b => Sys2Proof.Machine.execSha d a b s
  | .shl d a b => Sys2Proof.Machine.execShl d a b s
  | .cmplt d a b => Sys2Proof.Machine.execCmplt d a b s
  | .cmple d a b => Sys2Proof.Machine.execCmple d a b s
  | .cmpeq d a b => Sys2Proof.Machine.execCmpeq d a b s
  | .cmpltu d a b => Sys2Proof.Machine.execCmpltu d a b s
  | .cmpleu d a b => Sys2Proof.Machine.execCmpleu d a b s
  | .addi d a n => Sys2Proof.Machine.execAddi d a n s
  | .ld d a n => Sys2Proof.Machine.execLd d a n s
  | .st a b n => Sys2Proof.Machine.execSt a b n s
  | .ldb d a n => Sys2Proof.Machine.execLdb d a n s
  | .stb a b n => Sys2Proof.Machine.execStb a b n s
  | .jalr d a => Sys2Proof.Machine.execJalr d a s
  | .bz a n => Sys2Proof.Machine.execBz a n s
  | .bnz a n => Sys2Proof.Machine.execBnz a n s
  | .movi d n => Sys2Proof.Machine.execMovi d n s
  | .movhi d n => Sys2Proof.Machine.execMovhi d n s
  | .inp d n => Sys2Proof.Machine.execInp d n s
  | .out n a => Sys2Proof.Machine.execOut n a s

end Sys2Proof.Machine
end

