-- ==== Sys2Proof/Machine/Step.lean ====
section
/-! DEFINITION. One step of the machine (70_reset_and_hazards.md R195), and the host's placing of one instruction. -/

namespace Sys2Proof.Machine

/-- One step (R195): fetch the word at `pc`, decode it, and perform the rule of the instruction, or fault without a change
of state if it spells none. A step from an odd `pc`, which no rule gives a meaning, is refused (R191). -/
def step (s : State) : Host.Outcome State Fault Refusal :=
  if isEven s.pc then
    match decode s.fetchBytes with
    | .ok (i, _) => exec i s
    | .rejected _ => .fault (.reservedInstruction s.fetchWord)
  else .refused (.oddPc s.pc)

/-- The state with one instruction stored where `step` fetches the next: its word at `pc`, little endian, the bits above
`nbits` zero. It stands for the host's load of a one-instruction program (R193), log entry 12. -/
def State.withFetchWord (s : State) (nbits w : Nat) : State :=
  s.setWord s.pc (BitVec.ofNat 16 (w % 2 ^ nbits))

end Sys2Proof.Machine
end

