-- ==== Sys2Proof/Safety.lean ====
section
/-! DEFINITION. The terms claims use: the invariant of the machine, what an instruction leaves unchanged, what a run is
and when it is over. -/

namespace Sys2Proof.Machine

/-- The invariant every step keeps: the pc is even (10_state.md R27) and the memory is in its canonical form. -/
structure State.Inv (s : State) : Prop where
  pcEven : isEven s.pc = true
  memWf : Memory.wf s.mem

/-- Every byte of memory reads as before. -/
def SameMemory (s t : State) : Prop := ∀ x : Word, t.byte x = s.byte x

/-- Every byte of memory outside the addresses `l` reads as before. -/
def SameMemoryBut (l : List Word) (s t : State) : Prop := ∀ x : Word, x ∉ l → t.byte x = s.byte x

/-- Every register holds what it held. -/
def SameRegs (s t : State) : Prop := ∀ k : RegNum, t.reg k = s.reg k

/-- Every register but `d` holds what it held. -/
def SameRegsBut (d : RegNum) (s t : State) : Prop := ∀ k : RegNum, k ≠ d → t.reg k = s.reg k

/-- Every output port holds what it held. -/
def SameOutputs (s t : State) : Prop := ∀ p : Port, t.out p = s.out p

/-- `t` is `s` after `x[d] <- v; pc <- pc + 2` and nothing else: no other register, no byte of memory, no port and no
event (00_scope.md R12). -/
structure WritesOnlyReg (s t : State) (d : RegNum) (v : Word) : Prop where
  dest : t.reg d = v
  pc : t.pc = s.pc + 2#16
  regs : SameRegsBut d s t
  memory : SameMemory s t
  outputs : SameOutputs s t
  trace : t.trace = s.trace

/-- `t` is `s` after `pc <- target` and nothing else. -/
structure WritesOnlyPc (s t : State) (target : Word) : Prop where
  pc : t.pc = target
  regs : SameRegs s t
  memory : SameMemory s t
  outputs : SameOutputs s t
  trace : t.trace = s.trace

/-- What output port `p` holds after the events of a trace, if it held `v` before them: the last value written to it
(44_input_output.md R154). -/
def lastOutput (p : Port) : Word → List IoEvent → Word
  | v, [] => v
  | v, .input _ _ :: es => lastOutput p v es
  | v, .output q w :: es => lastOutput p (if q = p then w else v) es

/-- Every output port holds the last value the trace says was written to it, or its launch value (R154). -/
def State.OutputsFollowTrace (init : Vector Word 256) (s : State) : Prop :=
  ∀ p : Port, s.out p = lastOutput p init[p.val] s.trace

/-- Every IN event of the trace received what the oracle answered after the events before it (R152). -/
def State.InputsFollowOracle (s : State) : Prop :=
  ∀ (before after : List IoEvent) (p : Port) (v : Word),
    s.trace = before ++ .input p v :: after → v = Config.inputOracle p before

/-- Two states that differ at most in what the output ports hold. -/
structure State.SameButOutputs (s t : State) : Prop where
  pc : s.pc = t.pc
  regs : s.regs = t.regs
  mem : s.mem = t.mem
  trace : s.trace = t.trace

/-- Two outcomes alike: next states alike but for the output ports, or the same stop. -/
def SameOutcomeButOutputs : Result → Result → Prop
  | .next s, .next t => State.SameButOutputs s t
  | .fault f, .fault g => f = g
  | .refused q, .refused r => q = r
  | _, _ => False

/-! Runs (70_reset_and_hazards.md R197). -/

/-- How far a run has come. -/
inductive RunResult where
  | over (s : State)                    -- the pc of `s` is in END: `s` is the final state
  | running (s : State)                 -- the steps allowed are used up
  | faulted (r : Fault) (s : State)     -- the step from `s` faults: the run has no final state
  | refused (r : Refusal) (s : State)   -- the step from `s` has no meaning
deriving DecidableEq, Repr

/-- A run with at most `k` steps: over at the first state whose pc is in END, before that instruction is fetched (R197). -/
def runUntil (ends : List Word) : Nat → State → RunResult
  | 0, s => if s.pc ∈ ends then .over s else .running s
  | k + 1, s =>
    if s.pc ∈ ends then .over s
    else
      match step s with
      | .next t => runUntil ends k t
      | .fault r => .faulted r s
      | .refused r => .refused r s

/-- `t` is reached from `s` by `k` steps none of which starts at an address of END. -/
inductive StepsOutside (ends : List Word) : Nat → State → State → Prop where
  | stay (s : State) : StepsOutside ends 0 s s
  | step {k : Nat} {s t u : State} (outside : s.pc ∉ ends) (one : Machine.step s = .next t)
      (rest : StepsOutside ends k t u) : StepsOutside ends (k + 1) s u

end Sys2Proof.Machine
end

