-- ==== Sys2Proof/Certificates/Slice0/Obligations.lean ====
section
/-! DEFINITION. The statements for the provers. Each docstring names the rule of spec/ it formalises; where a clause rests
on a decision of the spec's own or on a choice of the model, the docstring says so and names it. -/

open Sys2Proof Sys2Proof.Machine

/-! Arithmetic and logic (40_arithmetic_logic.md). -/

/-- R101, R102, R103: the words `0000 aaa bbb ddd fff` with f = 0, 1, 2 are AND, OR, XOR, and each writes its bitwise result
to Rd and `pc + 2` to the pc and changes nothing else. -/
def Obligations.AndOrXorWriteBitwiseResult : Prop :=
  ∀ (d a b : RegNum) (s : State),
    (decodeWord (word3R 0#4 a b d 0#3) = .ok (.and d a b) ∧
      ∃ t v, exec (.and d a b) s = .next t ∧ WritesOnlyReg s t d v ∧
        ∀ i : Nat, v.getLsbD i = ((s.reg a).getLsbD i && (s.reg b).getLsbD i)) ∧
    (decodeWord (word3R 0#4 a b d 1#3) = .ok (.or d a b) ∧
      ∃ t v, exec (.or d a b) s = .next t ∧ WritesOnlyReg s t d v ∧
        ∀ i : Nat, v.getLsbD i = ((s.reg a).getLsbD i || (s.reg b).getLsbD i)) ∧
    (decodeWord (word3R 0#4 a b d 2#3) = .ok (.xor d a b) ∧
      ∃ t v, exec (.xor d a b) s = .next t ∧ WritesOnlyReg s t d v ∧
        ∀ i : Nat, v.getLsbD i = ((s.reg a).getLsbD i != (s.reg b).getLsbD i))

/-- R104: `0000 aaa xxx ddd 011` is NOT whatever its bits 8 to 6 hold (the spec's decision D14), and NOT inverts each of the
16 bits and changes nothing else but the pc; `~v = 0xFFFF - v`. -/
def Obligations.NotInvertsAndIgnoresFieldB : Prop :=
  ∀ (d a x : RegNum) (s : State),
    decodeWord (word3R 0#4 a x d 3#3) = .ok (.not d a) ∧
    ∃ t v, exec (.not d a) s = .next t ∧ WritesOnlyReg s t d v ∧ v = 0xFFFF#16 - s.reg a ∧
      ∀ i : Nat, i < 16 → v.getLsbD i = !(s.reg a).getLsbD i

/-- R105, R106: ADD and SUB write the low 16 bits of the exact sum and difference, which are the same for the unsigned and
for the signed reading; the difference is `x[a] + ~x[b] + 1`. -/
def Obligations.AddSubAreModuloTwoToSixteen : Prop :=
  ∀ (d a b : RegNum) (s : State),
    (decodeWord (word3R 0#4 a b d 4#3) = .ok (.add d a b) ∧
      ∃ t v, exec (.add d a b) s = .next t ∧ WritesOnlyReg s t d v ∧
        v = BitVec.ofNat 16 ((s.reg a).toNat + (s.reg b).toNat) ∧
        v = BitVec.ofInt 16 ((s.reg a).toInt + (s.reg b).toInt)) ∧
    (decodeWord (word3R 0#4 a b d 5#3) = .ok (.sub d a b) ∧
      ∃ t v, exec (.sub d a b) s = .next t ∧ WritesOnlyReg s t d v ∧
        v = BitVec.ofInt 16 (((s.reg a).toNat : Int) - ((s.reg b).toNat : Int)) ∧
        v = BitVec.ofInt 16 ((s.reg a).toInt - (s.reg b).toInt) ∧
        v = s.reg a + ~~~(s.reg b) + 1#16)

/-- R107 and R108, whose floor is the spec's decision D15 (log entry 7): SHA by `k = sint_5(x[b][4:0])`, from -16 to 15.
Left for k >= 0, the low 16 bits of the product; for k < 0 the floor of the signed quotient, which is the shift that
copies the sign bit in. -/
def Obligations.ShaShiftsSigned : Prop :=
  ∀ (d a b : RegNum) (s : State),
    let k : Int := ((s.reg b).extractLsb' 0 5).toInt
    let n : Nat := (-k).toNat
    decodeWord (word3R 0#4 a b d 6#3) = .ok (.sha d a b) ∧ -16 ≤ k ∧ k ≤ 15 ∧
    ∃ t v, exec (.sha d a b) s = .next t ∧ WritesOnlyReg s t d v ∧
      (0 ≤ k → v = BitVec.ofInt 16 ((s.reg a).toInt * 2 ^ k.toNat)) ∧
      (k < 0 → v.toInt = (s.reg a).toInt / 2 ^ n) ∧
      (k < 0 → ∀ i : Nat, i < 16 →
        v.getLsbD i = if i + n < 16 then (s.reg a).getLsbD (i + n) else (s.reg a).getLsbD 15)

/-- R107 and R109, whose reading for k < 0 is the spec's decision D15: SHL by `k = sint_5(x[b][4:0])`. Left for k >= 0, the
low 16 bits of the product; for k < 0 the floor of the unsigned quotient, which is the shift that takes zeros in. -/
def Obligations.ShlShiftsUnsigned : Prop :=
  ∀ (d a b : RegNum) (s : State),
    let k : Int := ((s.reg b).extractLsb' 0 5).toInt
    let n : Nat := (-k).toNat
    decodeWord (word3R 0#4 a b d 7#3) = .ok (.shl d a b) ∧
    ∃ t v, exec (.shl d a b) s = .next t ∧ WritesOnlyReg s t d v ∧
      (0 ≤ k → v = BitVec.ofNat 16 ((s.reg a).toNat * 2 ^ k.toNat)) ∧
      (k < 0 → v.toNat = (s.reg a).toNat / 2 ^ n) ∧
      (k < 0 → ∀ i : Nat, i < 16 → v.getLsbD i = (i + n < 16 && (s.reg a).getLsbD (i + n)))

/-- R107 with R111(e), (f) and D15: SHA and SHL give one result for a left shift, and for a right shift exactly when Ra is
not negative. -/
def Obligations.ShaEqualsShlUnlessNegativeShiftedRight : Prop :=
  ∀ (d a b : RegNum) (s : State), ∃ t u,
    exec (.sha d a b) s = .next t ∧ exec (.shl d a b) s = .next u ∧
    (t.reg d = u.reg d ↔ (0 ≤ ((s.reg b).extractLsb' 0 5).toInt ∨ 0 ≤ (s.reg a).toInt))

/-- R110: `0010 aaa ddd nnnnnn` is ADDI, which writes the low 16 bits of `Ra + SE(N6)`. -/
def Obligations.AddiAddsSignedImmediate : Prop :=
  ∀ (d a : RegNum) (n : BitVec 6) (s : State),
    decodeWord (word2R 2#4 a d n) = .ok (.addi d a n) ∧
    ∃ t, exec (.addi d a n) s = .next t ∧
      WritesOnlyReg s t d (BitVec.ofInt 16 (((s.reg a).toNat : Int) + n.toInt))

/-! Compares (41_compare.md). -/

/-- R121 to R125: `0001 aaa bbb ddd fff` with f = 0, 1, 3, 4, 5 are the five compares, and each writes 1 or 0 to Rd by its
relation of the mathematical values, changing nothing else but the pc. -/
def Obligations.ComparesWriteOneOrZero : Prop :=
  ∀ (d a b : RegNum) (s : State),
    (decodeWord (word3R 1#4 a b d 0#3) = .ok (.cmplt d a b) ∧ ∃ t, exec (.cmplt d a b) s = .next t ∧
      WritesOnlyReg s t d (if (s.reg a).toInt < (s.reg b).toInt then 0x0001#16 else 0x0000#16)) ∧
    (decodeWord (word3R 1#4 a b d 1#3) = .ok (.cmple d a b) ∧ ∃ t, exec (.cmple d a b) s = .next t ∧
      WritesOnlyReg s t d (if (s.reg a).toInt ≤ (s.reg b).toInt then 0x0001#16 else 0x0000#16)) ∧
    (decodeWord (word3R 1#4 a b d 3#3) = .ok (.cmpeq d a b) ∧ ∃ t, exec (.cmpeq d a b) s = .next t ∧
      WritesOnlyReg s t d (if s.reg a = s.reg b then 0x0001#16 else 0x0000#16)) ∧
    (decodeWord (word3R 1#4 a b d 4#3) = .ok (.cmpltu d a b) ∧ ∃ t, exec (.cmpltu d a b) s = .next t ∧
      WritesOnlyReg s t d (if (s.reg a).toNat < (s.reg b).toNat then 0x0001#16 else 0x0000#16)) ∧
    (decodeWord (word3R 1#4 a b d 5#3) = .ok (.cmpleu d a b) ∧ ∃ t, exec (.cmpleu d a b) s = .next t ∧
      WritesOnlyReg s t d (if (s.reg a).toNat ≤ (s.reg b).toNat then 0x0001#16 else 0x0000#16))

/-- The laws (a), (b), (e) the spec derives in R126: CMPLE is CMPLT or CMPEQ, CMPLEU is CMPLTU or CMPEQ, the result is 0 or
1, and CMPLT differs from CMPLTU exactly when the sign bits differ. -/
def Obligations.CompareLaws : Prop :=
  ∀ (d a b : RegNum) (s : State), ∃ lt le eq ltu leu : State,
    exec (.cmplt d a b) s = .next lt ∧ exec (.cmple d a b) s = .next le ∧ exec (.cmpeq d a b) s = .next eq ∧
    exec (.cmpltu d a b) s = .next ltu ∧ exec (.cmpleu d a b) s = .next leu ∧
    le.reg d = lt.reg d ||| eq.reg d ∧ leu.reg d = ltu.reg d ||| eq.reg d ∧
    (∀ t ∈ [lt, le, eq, ltu, leu], t.reg d = 0x0000#16 ∨ t.reg d = 0x0001#16) ∧
    (lt.reg d ≠ ltu.reg d ↔ (s.reg a).getLsbD 15 ≠ (s.reg b).getLsbD 15)

/-! Immediate moves (42_move_immediate.md). -/

/-- R131: `1001 ddd 0 nnnnnnnn` is MOVI, which writes `sext_16(N8)`: bit 7 of N8 copied into bits 15 to 8. -/
def Obligations.MoviWritesSignedImmediate : Prop :=
  ∀ (d : RegNum) (n : BitVec 8) (s : State),
    decodeWord (word1R 9#4 d false n) = .ok (.movi d n) ∧
    ∃ t v, exec (.movi d n) s = .next t ∧ WritesOnlyReg s t d v ∧ v.toInt = n.toInt ∧
      ∀ i : Nat, i < 16 → v.getLsbD i = if i < 8 then n.getLsbD i else n.getLsbD 7

/-- R132, whose kept low byte is the spec's decision D16: `1001 ddd 1 nnnnnnnn` is MOVHI, which replaces bits 15 to 8 of Rd by
N8 and keeps bits 7 to 0. -/
def Obligations.MovhiReplacesHighByte : Prop :=
  ∀ (d : RegNum) (n : BitVec 8) (s : State),
    decodeWord (word1R 9#4 d true n) = .ok (.movhi d n) ∧
    ∃ t v, exec (.movhi d n) s = .next t ∧ WritesOnlyReg s t d v ∧
      ∀ i : Nat, i < 16 → v.getLsbD i = if i < 8 then (s.reg d).getLsbD i else n.getLsbD (i - 8)

/-- R130 with D16: MOVI then MOVHI load any constant `hi : lo` into Rd, whatever it held, and touch no other register. -/
def Obligations.MoviThenMovhiLoadsAnyConstant : Prop :=
  ∀ (d : RegNum) (hi lo : BitVec 8) (s : State), ∃ t u,
    exec (.movi d lo) s = .next t ∧ exec (.movhi d hi) t = .next u ∧
    u.reg d = hi ++ lo ∧ u.pc = s.pc + 4#16 ∧ SameRegsBut d s u ∧ SameMemory s u

/-! Loads and stores (43_load_store.md, 20_memory.md). -/

/-- R40: the word at an even address k is `Mem[k+1] : Mem[k]`, and storing a word there puts its bits 7 to 0 at k and its bits
15 to 8 at k+1. -/
def Obligations.WordsAreLittleEndian : Prop :=
  ∀ (s : State) (k v : Word), isEven k = true →
    (k + 1#16).toNat = k.toNat + 1 ∧
    (s.word k).extractLsb' 0 8 = s.byte k ∧ (s.word k).extractLsb' 8 8 = s.byte (k + 1#16) ∧
    (s.setWord k v).byte k = v.extractLsb' 0 8 ∧ (s.setWord k v).byte (k + 1#16) = v.extractLsb' 8 8

/-- R141: `0011 aaa ddd nnnnnn` is LD, which writes to Rd the little-endian word at `(Ra + SE(N6)) & 0xFFFE`. -/
def Obligations.LdLoadsAlignedWord : Prop :=
  ∀ (d a : RegNum) (n : BitVec 6) (s : State),
    let wa : Word := (s.reg a + n.signExtend 16) &&& 0xFFFE#16
    decodeWord (word2R 3#4 a d n) = .ok (.ld d a n) ∧
    ∃ t, exec (.ld d a n) s = .next t ∧ WritesOnlyReg s t d (s.byte (wa + 1#16) ++ s.byte wa)

/-- R143: `0101 aaa ddd nnnnnn` is LDB, which writes to Rd the sign-extended byte at `Ra + SE(N6)`, bit 0 kept. -/
def Obligations.LdbLoadsSignedByte : Prop :=
  ∀ (d a : RegNum) (n : BitVec 6) (s : State),
    let ea : Word := s.reg a + n.signExtend 16
    decodeWord (word2R 5#4 a d n) = .ok (.ldb d a n) ∧
    ∃ t v, exec (.ldb d a n) s = .next t ∧ WritesOnlyReg s t d v ∧ v.toInt = (s.byte ea).toInt ∧
      ∀ i : Nat, i < 16 → v.getLsbD i = if i < 8 then (s.byte ea).getLsbD i else (s.byte ea).getLsbD 7

/-- R142: `0100 aaa bbb nnnnnn` is ST, which stores Rb little endian at `wa = (Ra + SE(N6)) & 0xFFFE`: every byte outside
`wa` and `wa + 1` reads as before, and no register, port or event changes. -/
def Obligations.StStoresAlignedWord : Prop :=
  ∀ (a b : RegNum) (n : BitVec 6) (s : State),
    let wa : Word := (s.reg a + n.signExtend 16) &&& 0xFFFE#16
    decodeWord (word2R 4#4 a b n) = .ok (.st a b n) ∧
    ∃ t, exec (.st a b n) s = .next t ∧
      t.byte wa = (s.reg b).extractLsb' 0 8 ∧ t.byte (wa + 1#16) = (s.reg b).extractLsb' 8 8 ∧
      SameMemoryBut [wa, wa + 1#16] s t ∧ SameRegs s t ∧ SameOutputs s t ∧ t.trace = s.trace ∧ t.pc = s.pc + 2#16

/-- R144: `0110 aaa bbb nnnnnn` is STB, which stores the low byte of Rb at `ea = Ra + SE(N6)`: every other byte reads as
before, and no register, port or event changes. -/
def Obligations.StbStoresLowByte : Prop :=
  ∀ (a b : RegNum) (n : BitVec 6) (s : State),
    let ea : Word := s.reg a + n.signExtend 16
    decodeWord (word2R 6#4 a b n) = .ok (.stb a b n) ∧
    ∃ t, exec (.stb a b n) s = .next t ∧
      t.byte ea = (s.reg b).extractLsb' 0 8 ∧
      SameMemoryBut [ea] s t ∧ SameRegs s t ∧ SameOutputs s t ∧ t.trace = s.trace ∧ t.pc = s.pc + 2#16

/-- R43, R44: a word access uses the even address `(Ra + SE(N6)) & 0xFFFE`; computed addresses 2m and 2m+1 give LD one
result and ST one effect, and neither raises anything. -/
def Obligations.OddWordAddressActsAsEven : Prop :=
  ∀ (d a a' b : RegNum) (n n' : BitVec 6) (s : State) (m : Word),
    s.reg a + n.signExtend 16 = 2#16 * m → s.reg a' + n'.signExtend 16 = 2#16 * m + 1#16 →
    s.wordAddr a n = 2#16 * m ∧ s.wordAddr a' n' = 2#16 * m ∧
    (∃ t, exec (.ld d a n) s = .next t ∧ exec (.ld d a' n') s = .next t) ∧
    (∃ t, exec (.st a b n) s = .next t ∧ exec (.st a' b n') s = .next t)

/-- R47, the spec's decision D7: the computed address is the exact sum reduced modulo 2^16, and its word address is that with
bit 0 cleared. -/
def Obligations.EffectiveAddressWraps : Prop :=
  ∀ (a : RegNum) (n : BitVec 6) (s : State),
    ((s.ea a n).toNat : Int) = (((s.reg a).toNat : Int) + n.toInt) % 65536 ∧
    (s.wordAddr a n).toNat = 2 * ((s.ea a n).toNat / 2) ∧ isEven (s.wordAddr a n) = true

/-- R42, derived by the spec from R40: after ST, LD with the same operands returns the word, and LDB from the two bytes
returns them sign-extended. -/
def Obligations.StoreThenLoadReturnsValue : Prop :=
  ∀ (d a b : RegNum) (n n' : BitVec 6) (s : State), ∃ t u, exec (.st a b n) s = .next t ∧
    exec (.ld d a n) t = .next u ∧ u.reg d = s.reg b ∧
    (s.ea a n' = s.wordAddr a n →
      ∃ w, exec (.ldb d a n') t = .next w ∧ (w.reg d).toInt = ((s.reg b).extractLsb' 0 8).toInt) ∧
    (s.ea a n' = s.wordAddr a n + 1#16 →
      ∃ w, exec (.ldb d a n') t = .next w ∧ (w.reg d).toInt = ((s.reg b).extractLsb' 8 8).toInt)

/-! Input and output (44_input_output.md). -/

/-- R151 with the oracle and the trace of R152 and R154, the spec's decision D18 (log entry 5): `1010 ddd 0 nnnnnnnn` is IN,
which writes to Rd what the oracle answers for port `uint(N8)` after the events so far, whatever that is, and appends the
event; no other register, no byte and no output port changes. -/
def Obligations.InReadsOracleAndRecords : Prop :=
  ∀ (d : RegNum) (n : BitVec 8) (s : State), ∃ p : Port, p.val = n.toNat ∧
    decodeWord (word1R 10#4 d false n) = .ok (.inp d n) ∧
    ∃ t, exec (.inp d n) s = .next t ∧ t.reg d = Config.inputOracle p s.trace ∧
      t.trace = s.trace ++ [.input p (t.reg d)] ∧ t.pc = s.pc + 2#16 ∧
      SameRegsBut d s t ∧ SameMemory s t ∧ SameOutputs s t

/-- R153 with the trace of R154, the spec's decision D18: `1010 aaa 1 nnnnnnnn` is OUT, which puts all 16 bits of Ra in output
port `uint(N8)` and appends the event; no register, no byte and no other output port changes. -/
def Obligations.OutWritesPort : Prop :=
  ∀ (a : RegNum) (n : BitVec 8) (s : State), ∃ p : Port, p.val = n.toNat ∧
    decodeWord (word1R 10#4 a true n) = .ok (.out n a) ∧
    ∃ t, exec (.out n a) s = .next t ∧ t.out p = s.reg a ∧ (∀ q : Port, q ≠ p → t.out q = s.out q) ∧
      t.trace = s.trace ++ [.output p (s.reg a)] ∧ t.pc = s.pc + 2#16 ∧ SameRegs s t ∧ SameMemory s t

/-- R154, the spec's decision D18: a step appends one event to the trace if the instruction is IN or OUT, that of its port
and value, and none otherwise. -/
def Obligations.TraceRecordsEachInAndOut : Prop :=
  ∀ (i : Instr) (s : State), ∃ t, exec i s = .next t ∧
    t.trace = s.trace ++
      (match i with
       | .inp d n => [.input n.toFin (t.reg d)]
       | .out n a => [.output n.toFin (s.reg a)]
       | _ => [])

/-! Control transfer (45_control_transfer.md). -/

/-- R161, R162: `1000 aaa e nnnnnnnn` with e = 0, 1 are BZ and BNZ; taken, the pc becomes
`pc + 2 + (sext_16(N8) << 1)`, not taken `pc + 2`; nothing else changes. -/
def Obligations.BzBnzBranch : Prop :=
  ∀ (a : RegNum) (n : BitVec 8) (s : State),
    let next : Word := s.pc + 2#16
    let target : Word := s.pc + 2#16 + (n.signExtend 16 <<< 1)
    (decodeWord (word1R 8#4 a false n) = .ok (.bz a n) ∧
      ∃ t, exec (.bz a n) s = .next t ∧ WritesOnlyPc s t (if s.reg a = 0x0000#16 then target else next)) ∧
    (decodeWord (word1R 8#4 a true n) = .ok (.bnz a n) ∧
      ∃ t, exec (.bnz a n) s = .next t ∧ WritesOnlyPc s t (if s.reg a ≠ 0x0000#16 then target else next))

/-- R163, whose ignored bits 5 to 0 are the spec's decision D14: `0111 aaa ddd xxxxxx` is JALR, which jumps to the old Ra with
bit 0 cleared and writes `pc + 2` to Rd, Rd and Ra the same register or not; nothing else changes. -/
def Obligations.JalrJumpsAndLinks : Prop :=
  ∀ (d a : RegNum) (x : BitVec 6) (s : State),
    decodeWord (word2R 7#4 a d x) = .ok (.jalr d a) ∧
    ∃ t, exec (.jalr d a) s = .next t ∧ t.reg d = s.pc + 2#16 ∧ t.pc = s.reg a &&& 0xFFFE#16 ∧
      SameRegsBut d s t ∧ SameMemory s t ∧ SameOutputs s t ∧ t.trace = s.trace

/-- R164, the spec's decision D2: a taken branch goes to `pc + 2 + 2*sint_8(N8)` modulo 2^16; from an even pc that target is
even, and JALR's target is even from any. -/
def Obligations.TargetsWrapAndAreEven : Prop :=
  ∀ (d a : RegNum) (n : BitVec 8) (s : State),
    (s.branchTarget n = BitVec.ofInt 16 ((s.pc.toNat : Int) + 2 + 2 * n.toInt)) ∧
    (isEven s.pc = true → isEven (s.branchTarget n) = true) ∧
    (∃ t, exec (.jalr d a) s = .next t ∧ isEven t.pc = true)

/-- R161 with R177: from an even pc at which the word `BZ Ra, -1` stands, with Ra = 0, the step leads back to the same
state. The fetch and the wrap of the target are the spec's decisions D5 and D2 (log entry 10). -/
def Obligations.BranchToItselfLoops : Prop :=
  ∀ (a : RegNum) (s : State), isEven s.pc = true → s.fetchWord = word1R 8#4 a false 0xFF#8 → s.reg a = 0x0000#16 →
    step s = .next s

/-! The whole machine. -/

/-- R12, R25: every instruction completes, and the pc after it is `pc + 2`, but for a taken branch and a jump. -/
def Obligations.EveryInstructionCompletesAndMovesPc : Prop :=
  ∀ (i : Instr) (s : State), ∃ t, exec i s = .next t ∧
    t.pc =
      match i with
      | .bz a n => if s.reg a = 0x0000#16 then s.pc + 2#16 + (n.signExtend 16 <<< 1) else s.pc + 2#16
      | .bnz a n => if s.reg a = 0x0000#16 then s.pc + 2#16 else s.pc + 2#16 + (n.signExtend 16 <<< 1)
      | .jalr _ a => s.reg a &&& 0xFFFE#16
      | _ => s.pc + 2#16

/-- The "written by" column of 10_state.md section 1 and R23, derived by the spec: only Rd changes among the registers, only
ST and STB change memory, only OUT changes an output port. -/
def Obligations.OnlyNamedStateChanges : Prop :=
  ∀ (i : Instr) (s : State), ∃ t, exec i s = .next t ∧
    (∀ k : RegNum, i.dest ≠ some k → t.reg k = s.reg k) ∧
    (t.mem ≠ s.mem → i.mnemonic = .st ∨ i.mnemonic = .stb) ∧
    (t.output ≠ s.output → i.mnemonic = .out)

/-- R23 and R11, derived by the spec: a register that is not among an instruction's sources has no influence on it. Changing
it before changes nothing after but that register itself, and not even that where it is the destination. For IN this
compares two runs with one I/O history, so it rests on the oracle being a function of the port and that history: the
spec's decision D18, in the form of log entry 5 (DESIGN CHOICE), which calls this comparison unsafe. -/
def Obligations.OnlySourcesAreRead : Prop :=
  ∀ (i : Instr) (s : State) (k : RegNum) (v : Word), k ∉ i.sources → ∃ t, exec i s = .next t ∧
    exec i (s.setReg k v) = .next (if i.dest = some k then t else t.setReg k v)

/-- R195 with R41, the spec's decisions D5, D10: where the pc is even and the two bytes at it, little endian, spell an
instruction, the step is exactly that instruction; so does the host's placing of a word at an even pc. -/
def Obligations.StepRunsDecodedInstruction : Prop :=
  (∀ (s : State) (i : Instr), isEven s.pc = true → decodeWord (s.byte (s.pc + 1#16) ++ s.byte s.pc) = .ok i →
    step s = exec i s) ∧
  (∀ (s : State) (w : Word) (i : Instr), isEven s.pc = true → decodeWord w = .ok i →
    step (s.withFetchWord 16 w.toNat) = exec i (s.withFetchWord 16 w.toNat))

/-- R85, R171, R174, the spec's decision D13 (log entry 13), with its fetch D5 (log entry 10): from an even pc the step faults exactly when the word there is unassigned, with
that word as the reason; every other step from an even pc answers a next state. -/
def Obligations.StepFaultsExactlyOnUnassignedWord : Prop :=
  ∀ s : State, isEven s.pc = true →
    ((s.fetchWord &&& 0xF007#16 ∈ [0x1002#16, 0x1006#16, 0x1007#16] ∨ 0xB000#16 ≤ s.fetchWord) →
      step s = .fault (.reservedInstruction s.fetchWord)) ∧
    (¬(s.fetchWord &&& 0xF007#16 ∈ [0x1002#16, 0x1006#16, 0x1007#16] ∨ 0xB000#16 ≤ s.fetchWord) →
      ∃ t, step s = .next t)

/-- The model's choice for the pc no rule gives a meaning (R191, U18; log entry 6): a step from an odd pc is refused. -/
def Obligations.StepFromOddPcIsRefused : Prop :=
  ∀ s : State, isEven s.pc = false → step s = .refused (.oddPc s.pc)

/-- R27, derived by the spec, with the model's canonical form of memory (log entry 3): every step keeps the pc even and the
memory canonical. -/
def Obligations.StepKeepsInvariant : Prop :=
  ∀ s t : State, s.Inv → step s = .next t → t.Inv

/-- The base case of StepKeepsInvariant: the invariant holds at State.reset. It rests on the model's choices that State.reset
takes the default RESET_PC 0x0000 (log entry 1, DESIGN CHOICE; R191 gives the default) and that memory is a canonical list,
empty at reset (log entry 3, DESIGN CHOICE). -/
def Obligations.ResetMeetsInvariant : Prop := State.reset.Inv

/-- R154, the spec's decision D18: every step keeps each output port at the last value the trace says was written to it, or
its launch value. -/
def Obligations.StepKeepsOutputsAsTraced : Prop :=
  ∀ (init : Vector Word 256) (s t : State), s.OutputsFollowTrace init → step s = .next t → t.OutputsFollowTrace init

/-- R152, the spec's decision D18, in the form of log entry 5 (DESIGN CHOICE): every step keeps each IN event of the trace at the oracle's answer after the events
before it. -/
def Obligations.StepKeepsInputsAsAnswered : Prop :=
  ∀ s t : State, s.InputsFollowOracle → step s = .next t → t.InputsFollowOracle

/-- The "read by" column of 10_state.md section 1 (Output: no instruction) and R32: what the output ports hold never
influences a step. For IN this compares two states with one trace, so it rests on the oracle answering alike after like
history: the spec's decision D18, in the form of log entry 5 (DESIGN CHOICE), which calls this comparison unsafe. -/
def Obligations.OutputsAreNeverRead : Prop :=
  ∀ s t : State, State.SameButOutputs s t → SameOutcomeButOutputs (step s) (step t)

/-- R56, the spec's decision D12 (log entry 9), with its fetch D5 (log entry 10): a word that ST puts at the next instruction's address is the instruction the
next step runs. -/
def Obligations.StoreIsSeenByNextFetch : Prop :=
  ∀ (a b : RegNum) (n : BitVec 6) (s : State) (j : Instr), isEven s.pc = true →
    decodeWord s.fetchWord = .ok (.st a b n) → s.wordAddr a n = s.pc + 2#16 → decodeWord (s.reg b) = .ok j →
    ∃ t, step s = .next t ∧ step t = exec j t

/-! Encoding (30_encoding.md). -/

/-- The formats of section 2 with R83, R90 (D14 for the zeros in unused fields, D5 for the order of the bytes): every instruction, with every operand, is
read back from its word, and from its two bytes with whatever follows them left over. -/
def Obligations.DecodeOfEncodeIsIdentity : Prop :=
  ∀ (i : Instr) (rest : List Byte), decodeWord (encode i) = .ok i ∧ decode (encodeBytes i ++ rest) = .ok (i, rest)

/-- R86, the spec's decision D14: a word that spells an instruction is that instruction's word, but for bits 8 to 6 of a NOT
and bits 5 to 0 of a JALR. -/
def Obligations.EncodeOfDecodeRestoresUsedBits : Prop :=
  ∀ (w : Word) (i : Instr), decodeWord w = .ok i →
    encode i =
      match i with
      | .not _ _ => w &&& 0xFE3F#16
      | .jalr _ _ => w &&& 0xFFC0#16
      | _ => w

/-- R79 to R82: a word is the instruction of a row exactly when its deciding bits have the row's value, and no word has those
of two rows. -/
def Obligations.DecodeFollowsOpcodeTable : Prop :=
  (∀ (w : Word) (m : Mnemonic),
    (∃ i, decodeWord w = .ok i ∧ i.mnemonic = m) ↔ w &&& m.mask = m.matchBits) ∧
  (∀ (w : Word) (m m' : Mnemonic), w &&& m.mask = m.matchBits → w &&& m'.mask = m'.matchBits → m = m')

/-- R78: c alone selects the instruction, with f when c is 0 or 1 and e when c is 8, 9 or 0xA. -/
def Obligations.OnlyDecidingFieldsSelect : Prop :=
  ∀ w w' : Word, opcodeField w = opcodeField w' →
    ((opcodeField w).toNat < 2 → functionField w = functionField w') →
    (8 ≤ (opcodeField w).toNat → (opcodeField w).toNat ≤ 10 → extensionField w = extensionField w') →
    ∀ i, decodeWord w = .ok i → ∃ i', decodeWord w' = .ok i' ∧ i'.mnemonic = i.mnemonic

/-- R84: the words that spell no instruction, (a), (b) and (c), each rejected by its own name; 1536, 4096 and 16384 of them,
and 43520 words are instructions. -/
def Obligations.UnassignedWordsAreRejected : Prop :=
  (∀ w : Word, decodeWord w = .rejected (.unassignedFunction w) ↔
    w &&& 0xF007#16 = 0x1002#16 ∨ w &&& 0xF007#16 = 0x1006#16 ∨ w &&& 0xF007#16 = 0x1007#16) ∧
  (∀ w : Word, decodeWord w = .rejected (.unassignedOpcodeB w) ↔ w.extractLsb' 12 4 = 0b1011#4) ∧
  (∀ w : Word, decodeWord w = .rejected (.futureExtension w) ↔ w.extractLsb' 14 2 = 0b11#2) ∧
  (∀ (w : Word) (r : Reject), decodeWord w = .rejected r →
    r = .unassignedFunction w ∨ r = .unassignedOpcodeB w ∨ r = .futureExtension w) ∧
  (List.range 65536).countP (fun n =>
    decodeWord (BitVec.ofNat 16 n) == .rejected (.unassignedFunction (BitVec.ofNat 16 n))) = 1536 ∧
  (List.range 65536).countP (fun n =>
    decodeWord (BitVec.ofNat 16 n) == .rejected (.unassignedOpcodeB (BitVec.ofNat 16 n))) = 4096 ∧
  (List.range 65536).countP (fun n =>
    decodeWord (BitVec.ofNat 16 n) == .rejected (.futureExtension (BitVec.ofNat 16 n))) = 16384 ∧
  (List.range 65536).countP (fun n =>
    match decodeWord (BitVec.ofNat 16 n) with
    | .ok _ => true
    | .rejected _ => false) = 43520

/-- A few words written out from the spec's encodings (95_test_vectors.md 2.1, 2.2). -/
def Obligations.SampleWordsDecode : Prop :=
  decodeWord 0b0000001010011100#16 = .ok (.add 3 1 2) ∧
  decodeWord 0b0001001010011011#16 = .ok (.cmpeq 3 1 2) ∧
  decodeWord 0b0011001011111110#16 = .ok (.ld 3 1 0b111110#6) ∧
  decodeWord 0b0110001010100000#16 = .ok (.stb 1 2 0b100000#6) ∧
  decodeWord 0b0111110111000000#16 = .ok (.jalr 7 6) ∧
  decodeWord 0b1000001111111101#16 = .ok (.bnz 1 0b11111101#8) ∧
  decodeWord 0b1001011110010010#16 = .ok (.movhi 3 0b10010010#8) ∧
  decodeWord 0b1010011111111111#16 = .ok (.out 0b11111111#8 3) ∧
  decodeWord 0xFFFF#16 = .rejected (.futureExtension 0xFFFF#16)

/-! Assembler (30_encoding.md section 6). -/

/-- R88 with the spec's literal convention of R89 (D23; log entry 11): the assembler line of an instruction assembles to that
instruction. -/
def Obligations.AssembleOfDisassembleIsIdentity : Prop :=
  ∀ i : Instr, assemble (disassemble i) = some i

/-- R88, R89 (D23; log entry 11): a line assembles exactly when its operands are those of its form, its registers are R0 to
R7 and its literals in range. -/
def Obligations.AssembleAcceptsExactlyWellFormedLines : Prop :=
  ∀ l : AsmLine, (assemble l).isSome = l.wf

/-! Launch and run (70_reset_and_hazards.md). -/

/-- R190 to R194, the spec's decisions D3, D4, D6, D19: the launch state of any parameters with an even RESET_PC has the
registers, ports and bytes they give and an empty trace; an odd RESET_PC is refused. The conjunct `s.Inv` says besides that
its memory is in the canonical form, which is the model's own (log entry 3, DESIGN CHOICE). -/
def Obligations.LaunchGivesLaunchState : Prop :=
  ∀ p : Launch,
    (isEven p.resetPc = true → ∃ s, State.launch p = .next s ∧ s.Inv ∧ s.pc = p.resetPc ∧
      (∀ k : RegNum, s.reg k = p.initRegs[k.val]) ∧ (∀ q : Port, s.out q = p.initOut[q.val]) ∧ s.trace = [] ∧
      (∀ before after a v, p.initMem = before ++ (a, v) :: after → (∀ c ∈ after, c.1 ≠ a) → s.byte a = v)) ∧
    (isEven p.resetPc = false → State.launch p = .refused (.oddPc p.resetPc))

/-- R193, the spec's decision D6: every contents of the 65536 bytes is the memory of some launch. -/
def Obligations.EveryMemoryCanBeLaunched : Prop :=
  ∀ f : Word → Byte, ∃ p s, State.launch p = .next s ∧ ∀ a : Word, s.byte a = f a

/-- R191, R194 with the zeros the model chose (log entries 1 to 4): State.reset is the launch state of the default
parameters, with the pc at 0x0000 and the trace empty. -/
def Obligations.ResetIsDefaultLaunch : Prop :=
  State.launch Config.defaultLaunch = .next State.reset ∧ State.reset.pc = 0x0000#16 ∧ State.reset.trace = [] ∧
  (∀ k : RegNum, State.reset.reg k = 0x0000#16) ∧ (∀ p : Port, State.reset.out p = 0x0000#16) ∧
  (∀ a : Word, State.reset.byte a = 0x00#8)

/-- R197, the spec's decision D21 (log entry 8): a run with at most k steps is over in t exactly when the pc of t is in END
and t is reached by at most k steps none of which starts in END. -/
def Obligations.RunIsOverAtFirstEnd : Prop :=
  ∀ (ends : List Word) (k : Nat) (s t : State),
    runUntil ends k s = .over t ↔ t.pc ∈ ends ∧ ∃ n, n ≤ k ∧ StepsOutside ends n s t

/-- The model's canonical form (log entry 3): two canonical memories that read alike at every address are equal. -/
def Obligations.CanonicalMemoryIsDeterminedByReads : Prop :=
  ∀ m m' : Memory, Memory.wf m → Memory.wf m' →
    (∀ a : Word, Memory.read m a.toNat = Memory.read m' a.toNat) → m = m'
end

