-- ==== Sys2Proof/Laws/Decode.lean ====
section
/-! SUPPORT. What each field of a word built in one of the three formats reads as (30_encoding.md R71 to R74). -/

namespace Sys2Proof

/-- A slice of a concatenation that lies in the right part. -/
theorem slice_right {m n : Nat} (x : BitVec m) (y : BitVec n) {p w : Nat} (h : p + w ≤ n) :
    (x ++ y).extractLsb' p w = y.extractLsb' p w := by
  apply BitVec.eq_of_getLsbD_eq
  intro i hi
  have hlt : p + i < n := by omega
  simp [BitVec.getLsbD_append, hi, hlt]

/-- A slice of a concatenation that lies in the left part. -/
theorem slice_left {m n : Nat} (x : BitVec m) (y : BitVec n) {p w : Nat} (h : n ≤ p) :
    (x ++ y).extractLsb' p w = x.extractLsb' (p - n) w := by
  apply BitVec.eq_of_getLsbD_eq
  intro i hi
  have hlt : ¬ p + i < n := by omega
  have he : p + i - n = p - n + i := by omega
  simp [BitVec.getLsbD_append, hi, hlt, he]

/-- The slice that is the whole. -/
theorem slice_all {w : Nat} (x : BitVec w) : x.extractLsb' 0 w = x := by
  apply BitVec.eq_of_getLsbD_eq
  intro i hi
  simp [hi]

section ThreeR
variable (c : BitVec 4) (a b d : RegNum) (f : BitVec 3)

@[simp] theorem opcodeField_word3R : opcodeField (word3R c a b d f) = c := by
  unfold opcodeField word3R
  rw [slice_left _ _ (by decide), slice_left _ _ (by decide), slice_left _ _ (by decide), slice_left _ _ (by decide)]
  exact slice_all _

@[simp] theorem regField9_word3R : regField9 (word3R c a b d f) = a := by
  unfold regField9 word3R
  rw [slice_left _ _ (by decide), slice_left _ _ (by decide), slice_left _ _ (by decide), slice_right _ _ (by decide)]
  exact congrArg BitVec.toFin (slice_all _)

@[simp] theorem regField6_word3R : regField6 (word3R c a b d f) = b := by
  unfold regField6 word3R
  rw [slice_left _ _ (by decide), slice_left _ _ (by decide), slice_right _ _ (by decide)]
  exact congrArg BitVec.toFin (slice_all _)

@[simp] theorem regField3_word3R : regField3 (word3R c a b d f) = d := by
  unfold regField3 word3R
  rw [slice_left _ _ (by decide), slice_right _ _ (by decide)]
  exact congrArg BitVec.toFin (slice_all _)

@[simp] theorem functionField_word3R : functionField (word3R c a b d f) = f := by
  unfold functionField word3R
  rw [slice_right _ _ (by decide)]
  exact slice_all _

end ThreeR

section TwoR
variable (c : BitVec 4) (a r : RegNum) (n : BitVec 6)

@[simp] theorem opcodeField_word2R : opcodeField (word2R c a r n) = c := by
  unfold opcodeField word2R
  rw [slice_left _ _ (by decide), slice_left _ _ (by decide), slice_left _ _ (by decide)]
  exact slice_all _

@[simp] theorem regField9_word2R : regField9 (word2R c a r n) = a := by
  unfold regField9 word2R
  rw [slice_left _ _ (by decide), slice_left _ _ (by decide), slice_right _ _ (by decide)]
  exact congrArg BitVec.toFin (slice_all _)

@[simp] theorem regField6_word2R : regField6 (word2R c a r n) = r := by
  unfold regField6 word2R
  rw [slice_left _ _ (by decide), slice_right _ _ (by decide)]
  exact congrArg BitVec.toFin (slice_all _)

@[simp] theorem n6Field_word2R : n6Field (word2R c a r n) = n := by
  unfold n6Field word2R
  rw [slice_right _ _ (by decide)]
  exact slice_all _

end TwoR

section OneR
variable (c : BitVec 4) (r : RegNum) (e : Bool) (n : BitVec 8)

@[simp] theorem opcodeField_word1R : opcodeField (word1R c r e n) = c := by
  unfold opcodeField word1R
  rw [slice_left _ _ (by decide), slice_left _ _ (by decide), slice_left _ _ (by decide)]
  exact slice_all _

@[simp] theorem regField9_word1R : regField9 (word1R c r e n) = r := by
  unfold regField9 word1R
  rw [slice_left _ _ (by decide), slice_left _ _ (by decide), slice_right _ _ (by decide)]
  exact congrArg BitVec.toFin (slice_all _)

@[simp] theorem extensionField_word1R : extensionField (word1R c r e n) = e := by
  unfold extensionField word1R
  rw [BitVec.getLsbD_append, BitVec.getLsbD_append]
  cases e <;> rfl

@[simp] theorem n8Field_word1R : n8Field (word1R c r e n) = n := by
  unfold n8Field word1R
  rw [slice_right _ _ (by decide)]
  exact slice_all _

end OneR

/-- The word of the two bytes of a word is that word. -/
@[simp] theorem wordOfBytes_bytes (w : Word) : wordOfBytes (w.extractLsb' 0 8) (w.extractLsb' 8 8) = w := by
  apply BitVec.eq_of_getLsbD_eq
  intro i hi
  simp only [wordOfBytes, BitVec.getLsbD_append, BitVec.getLsbD_extractLsb']
  by_cases h8 : i < 8
  · simp [h8]
  · have hlt : i - 8 < 8 := by omega
    have hadd : 8 + (i - 8) = i := by omega
    simp [h8, hlt, hadd]

end Sys2Proof
end

