-- ==== Sys2Proof/Laws/State.lean ====
section
/-! SUPPORT. What each update of State does to each field: one lemma per field per update, so that no later proof unfolds a
record update. -/

namespace Sys2Proof.Machine

@[simp] theorem State.setPc_pc (s : State) (t : Word) : (s.setPc t).pc = t := rfl
@[simp] theorem State.setPc_regs (s : State) (t : Word) : (s.setPc t).regs = s.regs := rfl
@[simp] theorem State.setPc_mem (s : State) (t : Word) : (s.setPc t).mem = s.mem := rfl
@[simp] theorem State.setPc_output (s : State) (t : Word) : (s.setPc t).output = s.output := rfl
@[simp] theorem State.setPc_trace (s : State) (t : Word) : (s.setPc t).trace = s.trace := rfl

@[simp] theorem State.setReg_pc (s : State) (k : RegNum) (v : Word) : (s.setReg k v).pc = s.pc := rfl
@[simp] theorem State.setReg_regs (s : State) (k : RegNum) (v : Word) : (s.setReg k v).regs = s.regs.set k.val v := rfl
@[simp] theorem State.setReg_mem (s : State) (k : RegNum) (v : Word) : (s.setReg k v).mem = s.mem := rfl
@[simp] theorem State.setReg_output (s : State) (k : RegNum) (v : Word) : (s.setReg k v).output = s.output := rfl
@[simp] theorem State.setReg_trace (s : State) (k : RegNum) (v : Word) : (s.setReg k v).trace = s.trace := rfl

@[simp] theorem State.setByte_pc (s : State) (a : Word) (v : Byte) : (s.setByte a v).pc = s.pc := rfl
@[simp] theorem State.setByte_regs (s : State) (a : Word) (v : Byte) : (s.setByte a v).regs = s.regs := rfl
@[simp] theorem State.setByte_mem (s : State) (a : Word) (v : Byte) : (s.setByte a v).mem = Memory.write s.mem a.toNat v := rfl
@[simp] theorem State.setByte_output (s : State) (a : Word) (v : Byte) : (s.setByte a v).output = s.output := rfl
@[simp] theorem State.setByte_trace (s : State) (a : Word) (v : Byte) : (s.setByte a v).trace = s.trace := rfl

@[simp] theorem State.setWord_pc (s : State) (a : Word) (v : Word) : (s.setWord a v).pc = s.pc := rfl
@[simp] theorem State.setWord_regs (s : State) (a : Word) (v : Word) : (s.setWord a v).regs = s.regs := rfl
@[simp] theorem State.setWord_mem (s : State) (a : Word) (v : Word) : (s.setWord a v).mem = Memory.write (Memory.write s.mem a.toNat (v.extractLsb' 0 8)) (a + 1#16).toNat (v.extractLsb' 8 8) := rfl
@[simp] theorem State.setWord_output (s : State) (a : Word) (v : Word) : (s.setWord a v).output = s.output := rfl
@[simp] theorem State.setWord_trace (s : State) (a : Word) (v : Word) : (s.setWord a v).trace = s.trace := rfl

@[simp] theorem State.advance_pc (s : State) : s.advance.pc = s.nextPc := rfl
@[simp] theorem State.advance_regs (s : State) : s.advance.regs = s.regs := rfl
@[simp] theorem State.advance_mem (s : State) : s.advance.mem = s.mem := rfl
@[simp] theorem State.advance_output (s : State) : s.advance.output = s.output := rfl
@[simp] theorem State.advance_trace (s : State) : s.advance.trace = s.trace := rfl

@[simp] theorem State.record_pc (s : State) (e : IoEvent) : (s.record e).pc = s.pc := rfl
@[simp] theorem State.record_regs (s : State) (e : IoEvent) : (s.record e).regs = s.regs := rfl
@[simp] theorem State.record_mem (s : State) (e : IoEvent) : (s.record e).mem = s.mem := rfl
@[simp] theorem State.record_output (s : State) (e : IoEvent) : (s.record e).output = s.output := rfl
@[simp] theorem State.record_trace (s : State) (e : IoEvent) : (s.record e).trace = s.trace ++ [e] := rfl

@[simp] theorem State.setOut_pc (s : State) (p : Port) (v : Word) : (s.setOut p v).pc = s.pc := rfl
@[simp] theorem State.setOut_regs (s : State) (p : Port) (v : Word) : (s.setOut p v).regs = s.regs := rfl
@[simp] theorem State.setOut_mem (s : State) (p : Port) (v : Word) : (s.setOut p v).mem = s.mem := rfl
@[simp] theorem State.setOut_output (s : State) (p : Port) (v : Word) : (s.setOut p v).output = s.output.set p.val v := rfl
@[simp] theorem State.setOut_trace (s : State) (p : Port) (v : Word) : (s.setOut p v).trace = s.trace ++ [.output p v] := rfl

@[simp] theorem State.finishReg_pc (s : State) (d : RegNum) (v : Word) : (s.finishReg d v).pc = s.nextPc := rfl
@[simp] theorem State.finishReg_regs (s : State) (d : RegNum) (v : Word) : (s.finishReg d v).regs = s.regs.set d.val v := rfl
@[simp] theorem State.finishReg_mem (s : State) (d : RegNum) (v : Word) : (s.finishReg d v).mem = s.mem := rfl
@[simp] theorem State.finishReg_output (s : State) (d : RegNum) (v : Word) : (s.finishReg d v).output = s.output := rfl
@[simp] theorem State.finishReg_trace (s : State) (d : RegNum) (v : Word) : (s.finishReg d v).trace = s.trace := rfl

@[simp] theorem State.receive_pc (s : State) (d : RegNum) (p : Port) (v : Word) : (s.receive d p v).pc = s.nextPc := rfl
@[simp] theorem State.receive_regs (s : State) (d : RegNum) (p : Port) (v : Word) : (s.receive d p v).regs = s.regs.set d.val v := rfl
@[simp] theorem State.receive_mem (s : State) (d : RegNum) (p : Port) (v : Word) : (s.receive d p v).mem = s.mem := rfl
@[simp] theorem State.receive_output (s : State) (d : RegNum) (p : Port) (v : Word) : (s.receive d p v).output = s.output := rfl
@[simp] theorem State.receive_trace (s : State) (d : RegNum) (p : Port) (v : Word) : (s.receive d p v).trace = s.trace ++ [.input p v] := rfl

/-- Reading the register that was written. -/
@[simp] theorem State.reg_setReg_self (s : State) (k : RegNum) (v : Word) : (s.setReg k v).reg k = v := by
  simp [State.reg]

/-- Reading another register than the one written. -/
theorem State.reg_setReg_ne (s : State) (v : Word) {j k : RegNum} (h : j ≠ k) : (s.setReg k v).reg j = s.reg j := by
  have hv : k.val ≠ j.val := fun e => h (Fin.ext e.symm)
  simp [State.reg, hv]

@[simp] theorem State.reg_setPc (s : State) (t : Word) (k : RegNum) : (s.setPc t).reg k = s.reg k := rfl
@[simp] theorem State.reg_setByte (s : State) (a : Word) (v : Byte) (k : RegNum) : (s.setByte a v).reg k = s.reg k := rfl
@[simp] theorem State.reg_setWord (s : State) (a v : Word) (k : RegNum) : (s.setWord a v).reg k = s.reg k := rfl
@[simp] theorem State.reg_advance (s : State) (k : RegNum) : s.advance.reg k = s.reg k := rfl
@[simp] theorem State.reg_record (s : State) (e : IoEvent) (k : RegNum) : (s.record e).reg k = s.reg k := rfl
@[simp] theorem State.reg_setOut (s : State) (p : Port) (v : Word) (k : RegNum) : (s.setOut p v).reg k = s.reg k := rfl

@[simp] theorem State.reg_finishReg_self (s : State) (d : RegNum) (v : Word) : (s.finishReg d v).reg d = v :=
  State.reg_setReg_self s d v

theorem State.reg_finishReg_ne (s : State) (v : Word) {j d : RegNum} (h : j ≠ d) :
    (s.finishReg d v).reg j = s.reg j :=
  State.reg_setReg_ne s v h

@[simp] theorem State.reg_receive_self (s : State) (d : RegNum) (p : Port) (v : Word) : (s.receive d p v).reg d = v :=
  State.reg_setReg_self _ d v

theorem State.reg_receive_ne (s : State) (p : Port) (v : Word) {j d : RegNum} (h : j ≠ d) :
    (s.receive d p v).reg j = s.reg j :=
  State.reg_setReg_ne _ v h

/-- Reading the output port that was written. -/
@[simp] theorem State.out_setOut_self (s : State) (p : Port) (v : Word) : (s.setOut p v).out p = v := by
  simp [State.out]

/-- Reading another output port than the one written. -/
theorem State.out_setOut_ne (s : State) (v : Word) {q p : Port} (h : q ≠ p) : (s.setOut p v).out q = s.out q := by
  have hv : p.val ≠ q.val := fun e => h (Fin.ext e.symm)
  simp [State.out, hv]

@[simp] theorem State.out_setPc (s : State) (t : Word) (p : Port) : (s.setPc t).out p = s.out p := rfl
@[simp] theorem State.out_setReg (s : State) (k : RegNum) (v : Word) (p : Port) : (s.setReg k v).out p = s.out p := rfl
@[simp] theorem State.out_setByte (s : State) (a : Word) (v : Byte) (p : Port) : (s.setByte a v).out p = s.out p := rfl
@[simp] theorem State.out_setWord (s : State) (a v : Word) (p : Port) : (s.setWord a v).out p = s.out p := rfl
@[simp] theorem State.out_advance (s : State) (p : Port) : s.advance.out p = s.out p := rfl
@[simp] theorem State.out_finishReg (s : State) (d : RegNum) (v : Word) (p : Port) : (s.finishReg d v).out p = s.out p := rfl
@[simp] theorem State.out_receive (s : State) (d : RegNum) (q p : Port) (v : Word) :
    (s.receive d q v).out p = s.out p := rfl

@[simp] theorem State.byte_setPc (s : State) (t x : Word) : (s.setPc t).byte x = s.byte x := rfl
@[simp] theorem State.byte_setReg (s : State) (k : RegNum) (v x : Word) : (s.setReg k v).byte x = s.byte x := rfl
@[simp] theorem State.byte_advance (s : State) (x : Word) : s.advance.byte x = s.byte x := rfl
@[simp] theorem State.byte_record (s : State) (e : IoEvent) (x : Word) : (s.record e).byte x = s.byte x := rfl
@[simp] theorem State.byte_setOut (s : State) (p : Port) (v x : Word) : (s.setOut p v).byte x = s.byte x := rfl
@[simp] theorem State.byte_finishReg (s : State) (d : RegNum) (v x : Word) : (s.finishReg d v).byte x = s.byte x := rfl
@[simp] theorem State.byte_receive (s : State) (d : RegNum) (p : Port) (v x : Word) :
    (s.receive d p v).byte x = s.byte x := rfl

end Sys2Proof.Machine
end

