-- ==== Sys2Proof/Laws/Memory.lean ====
section
/-! SUPPORT. The laws of memory: reading after writing, and that every memory operation keeps the canonical form
(`Memory.wf`). The reading laws need no premise. -/

namespace Sys2Proof.Machine

theorem Memory.read_insert_self (a : Nat) (v : Byte) (m : Memory) (h : ∀ c ∈ m, c.1 ≠ a) :
    Memory.read (Memory.insert a v m) a = v := by
  induction m with
  | nil => simp [Memory.insert, Memory.read]
  | cons c m ih =>
    obtain ⟨k, b⟩ := c
    have hk : k ≠ a := h (k, b) (by simp)
    by_cases hlt : a < k
    · simp [Memory.insert, Memory.read, hlt]
    · simp [Memory.insert, Memory.read, hlt, hk, ih fun c hc => h c (by simp [hc])]

theorem Memory.read_insert_ne {a x : Nat} (v : Byte) (m : Memory) (hx : x ≠ a) :
    Memory.read (Memory.insert a v m) x = Memory.read m x := by
  induction m with
  | nil => simp [Memory.insert, Memory.read, Ne.symm hx]
  | cons c m ih =>
    obtain ⟨k, b⟩ := c
    by_cases hlt : a < k
    · simp [Memory.insert, Memory.read, hlt, Ne.symm hx]
    · simp [Memory.insert, Memory.read, hlt, ih]

theorem Memory.read_erase_self (a : Nat) (m : Memory) : Memory.read (Memory.erase a m) a = Memory.unlisted := by
  induction m with
  | nil => rfl
  | cons c m ih =>
    obtain ⟨k, b⟩ := c
    by_cases hk : k = a <;> simp [Memory.erase, Memory.read, hk, ih]

theorem Memory.read_erase_ne {a x : Nat} (m : Memory) (hx : x ≠ a) :
    Memory.read (Memory.erase a m) x = Memory.read m x := by
  induction m with
  | nil => rfl
  | cons c m ih =>
    obtain ⟨k, b⟩ := c
    by_cases hk : k = a
    · subst hk; simp [Memory.erase, Memory.read, Ne.symm hx, ih]
    · simp [Memory.erase, Memory.read, hk, ih]

theorem Memory.mem_erase {a : Nat} {m : Memory} {c : Host.Cell} (h : c ∈ Memory.erase a m) : c ∈ m ∧ c.1 ≠ a := by
  induction m with
  | nil => simp [Memory.erase] at h
  | cons e m ih =>
    obtain ⟨k, b⟩ := e
    by_cases hk : k = a
    · simp only [Memory.erase, hk, if_true] at h
      exact ⟨List.mem_cons_of_mem _ (ih h).1, (ih h).2⟩
    · simp only [Memory.erase, hk, if_false, List.mem_cons] at h
      rcases h with rfl | h
      · exact ⟨by simp, hk⟩
      · exact ⟨List.mem_cons_of_mem _ (ih h).1, (ih h).2⟩

theorem Memory.mem_insert {a : Nat} {v : Byte} {m : Memory} {c : Host.Cell} (h : c ∈ Memory.insert a v m) :
    c = (a, v) ∨ c ∈ m := by
  induction m with
  | nil => simpa [Memory.insert] using h
  | cons e m ih =>
    obtain ⟨k, b⟩ := e
    by_cases hlt : a < k
    · simpa [Memory.insert, hlt] using h
    · simp only [Memory.insert, hlt, if_false, List.mem_cons] at h
      rcases h with rfl | h
      · exact .inr (by simp)
      · rcases ih h with h | h
        · exact .inl h
        · exact .inr (List.mem_cons_of_mem _ h)

/-- A read at the address written gives the byte written. -/
@[simp] theorem Memory.read_write_self (m : Memory) (a : Nat) (v : Byte) :
    Memory.read (Memory.write m a v) a = v := by
  unfold Memory.write
  split
  · next h => rw [Memory.read_erase_self, h]
  · exact Memory.read_insert_self a v _ fun c hc => (Memory.mem_erase hc).2

/-- A read elsewhere gives what it gave before. -/
theorem Memory.read_write_ne (m : Memory) {a x : Nat} (v : Byte) (hx : x ≠ a) :
    Memory.read (Memory.write m a v) x = Memory.read m x := by
  unfold Memory.write
  split
  · exact Memory.read_erase_ne m hx
  · rw [Memory.read_insert_ne v _ hx, Memory.read_erase_ne m hx]

theorem Memory.erase_pairwise {m : Memory} (a : Nat) (h : m.Pairwise (fun x y => x.1 < y.1)) :
    (Memory.erase a m).Pairwise (fun x y => x.1 < y.1) := by
  induction m with
  | nil => simp [Memory.erase]
  | cons c m ih =>
    obtain ⟨k, b⟩ := c
    obtain ⟨hk, hm⟩ := List.pairwise_cons.mp h
    by_cases he : k = a
    · simpa [Memory.erase, he] using ih hm
    · simp only [Memory.erase, he, if_false]
      exact List.pairwise_cons.mpr ⟨fun c hc => hk c (Memory.mem_erase hc).1, ih hm⟩

theorem Memory.insert_pairwise {m : Memory} {a : Nat} (v : Byte) (h : m.Pairwise (fun x y => x.1 < y.1))
    (ha : ∀ c ∈ m, c.1 ≠ a) : (Memory.insert a v m).Pairwise (fun x y => x.1 < y.1) := by
  induction m with
  | nil => simp [Memory.insert]
  | cons c m ih =>
    obtain ⟨k, b⟩ := c
    obtain ⟨hk, hm⟩ := List.pairwise_cons.mp h
    have hka : k ≠ a := ha (k, b) (by simp)
    by_cases hlt : a < k
    · simp only [Memory.insert, hlt, if_true]
      refine List.pairwise_cons.mpr ⟨fun c hc => ?_, h⟩
      rcases List.mem_cons.mp hc with rfl | hc
      · exact hlt
      · exact Nat.lt_trans hlt (hk c hc)
    · simp only [Memory.insert, hlt, if_false]
      refine List.pairwise_cons.mpr ⟨fun c hc => ?_, ih hm fun c hc => ha c (List.mem_cons_of_mem _ hc)⟩
      rcases Memory.mem_insert hc with rfl | hc
      · exact Nat.lt_of_le_of_ne (Nat.le_of_not_lt hlt) hka
      · exact hk c hc

/-- Writing a byte below 2^16 keeps the canonical form. -/
theorem Memory.wf_write {m : Memory} {a : Nat} (v : Byte) (ha : a < 65536) (h : Memory.wf m) :
    Memory.wf (Memory.write m a v) := by
  unfold Memory.write
  split
  · exact ⟨Memory.erase_pairwise a h.1, fun c hc => h.2 c (Memory.mem_erase hc).1⟩
  · next hv =>
    refine ⟨Memory.insert_pairwise v (Memory.erase_pairwise a h.1) fun c hc => (Memory.mem_erase hc).2, ?_⟩
    intro c hc
    rcases Memory.mem_insert hc with rfl | hc
    · exact ⟨ha, hv⟩
    · exact h.2 c (Memory.mem_erase hc).1

theorem Memory.wf_nil : Memory.wf [] := by decide

/-- Storing a byte at a 16-bit address keeps the canonical form. -/
theorem State.setByte_wf {s : State} (a : Word) (v : Byte) (h : Memory.wf s.mem) : Memory.wf (s.setByte a v).mem :=
  Memory.wf_write v a.isLt h

/-- Storing a word keeps the canonical form. -/
theorem State.setWord_wf {s : State} (a v : Word) (h : Memory.wf s.mem) : Memory.wf (s.setWord a v).mem :=
  State.setByte_wf _ _ (State.setByte_wf _ _ h)

/-- Placing bytes over a canonical memory gives a canonical memory. -/
theorem foldl_write_wf (image : List (Word × Byte)) (m : Memory) (h : Memory.wf m) :
    Memory.wf (image.foldl (fun m c => Memory.write m c.1.toNat c.2) m) := by
  induction image generalizing m with
  | nil => exact h
  | cons c image ih => exact ih _ (Memory.wf_write c.2 c.1.isLt h)

/-- A launch's memory is in canonical form. -/
theorem loadImage_wf (image : List (Word × Byte)) : Memory.wf (loadImage image) :=
  foldl_write_wf image [] Memory.wf_nil

/-- The reset memory is in canonical form. -/
theorem reset_mem_wf : Memory.wf State.reset.mem := Memory.wf_nil

/-- What each byte reads as after a byte store. -/
theorem State.byte_setByte (s : State) (a x : Word) (v : Byte) :
    (s.setByte a v).byte x = if x = a then v else s.byte x := by
  by_cases h : x = a
  · subst h; simp [State.byte]
  · have hn : x.toNat ≠ a.toNat := fun e => h (BitVec.eq_of_toNat_eq e)
    simp [State.byte, h, Memory.read_write_ne _ _ hn]

/-- What each byte reads as after a word store. -/
theorem State.byte_setWord (s : State) (a x v : Word) :
    (s.setWord a v).byte x =
      if x = a + 1#16 then v.extractLsb' 8 8 else if x = a then v.extractLsb' 0 8 else s.byte x := by
  simp only [State.setWord, State.byte_setByte]

theorem word_succ_ne (a : Word) : a + 1#16 ≠ a := by
  intro h
  have := congrArg BitVec.toNat h
  simp only [BitVec.toNat_add, BitVec.toNat_ofNat] at this
  omega

theorem high_append_low (v : Word) : v.extractLsb' 8 8 ++ v.extractLsb' 0 8 = v := by
  apply BitVec.eq_of_getLsbD_eq
  intro i hi
  simp only [BitVec.getLsbD_append, BitVec.getLsbD_extractLsb']
  by_cases h8 : i < 8
  · simp [h8]
  · have hlt : i - 8 < 8 := by omega
    have hadd : 8 + (i - 8) = i := by omega
    simp [h8, hlt, hadd]

/-- A word read where a word was stored gives the word stored. -/
@[simp] theorem State.word_setWord_self (s : State) (a v : Word) : (s.setWord a v).word a = v := by
  simp [State.word, State.byte_setWord, (word_succ_ne a).symm, high_append_low]

end Sys2Proof.Machine
end

