-- ==== Sys2Proof/Laws/PerInstr.lean ====
section
/-! SUPPORT. Statements made once per instruction. -/

namespace Sys2Proof.Laws

/-- The encoded word lies in the instruction's own row of the opcode table (30_encoding.md R83). -/
def EncodesInRow.Statement (i : Instr) : Prop := encode i &&& i.mnemonic.mask = i.mnemonic.matchBits

/-- The assembler line of an instruction is one an assembler accepts (R88, R89). -/
def LineAccepted.Statement (i : Instr) : Prop := (disassemble i).wf = true

theorem row3R (c : BitVec 4) (a b d : RegNum) (f : BitVec 3) :
    word3R c a b d f &&& 0xF007#16 = c ++ 0#3 ++ 0#3 ++ 0#3 ++ f := by
  have hm : 0xF007#16 = BitVec.allOnes 4 ++ 0#3 ++ 0#3 ++ 0#3 ++ BitVec.allOnes 3 := by decide
  rw [hm]
  unfold word3R
  refine BitVec.and_append.trans ?_
  simp only [BitVec.and_append, BitVec.and_zero, BitVec.and_allOnes]

theorem row2R (c : BitVec 4) (a r : RegNum) (n : BitVec 6) :
    word2R c a r n &&& 0xF000#16 = c ++ 0#3 ++ 0#3 ++ 0#6 := by
  have hm : 0xF000#16 = BitVec.allOnes 4 ++ 0#3 ++ 0#3 ++ 0#6 := by decide
  rw [hm]
  unfold word2R
  refine BitVec.and_append.trans ?_
  simp only [BitVec.and_append, BitVec.and_zero, BitVec.and_allOnes]

theorem row1R (c : BitVec 4) (r : RegNum) (e : Bool) (n : BitVec 8) :
    word1R c r e n &&& 0xF100#16 = c ++ 0#3 ++ BitVec.ofBool e ++ 0#8 := by
  have hm : 0xF100#16 = BitVec.allOnes 4 ++ 0#3 ++ BitVec.allOnes 1 ++ 0#8 := by decide
  rw [hm]
  unfold word1R
  refine BitVec.and_append.trans ?_
  simp only [BitVec.and_append, BitVec.and_zero, BitVec.and_allOnes]

theorem regWf_fin (r : RegNum) : regWf r.val = true := decide_eq_true r.isLt

theorem litWf_toInt6 (n : BitVec 6) : litWf 6 n.toInt = true := by
  have h1 := BitVec.le_toInt n
  have h2 := BitVec.toInt_lt (x := n)
  simp only [litWf, decide_eq_true_eq]
  omega

theorem litWf_toInt8 (n : BitVec 8) : litWf 8 n.toInt = true := by
  have h1 := BitVec.le_toInt n
  have h2 := BitVec.toInt_lt (x := n)
  simp only [litWf, decide_eq_true_eq]
  omega

theorem litWf_toNat8 (n : BitVec 8) : litWf 8 (n.toNat : Int) = true := by
  have h := n.isLt
  simp only [litWf, decide_eq_true_eq]
  omega

theorem EncodesInRow.and (d a b : RegNum) : EncodesInRow.Statement (.and d a b) :=
  row3R 0 a b d 0
theorem EncodesInRow.or (d a b : RegNum) : EncodesInRow.Statement (.or d a b) :=
  row3R 0 a b d 1
theorem EncodesInRow.xor (d a b : RegNum) : EncodesInRow.Statement (.xor d a b) :=
  row3R 0 a b d 2
theorem EncodesInRow.not (d a : RegNum) : EncodesInRow.Statement (.not d a) :=
  row3R 0 a 0 d 3
theorem EncodesInRow.add (d a b : RegNum) : EncodesInRow.Statement (.add d a b) :=
  row3R 0 a b d 4
theorem EncodesInRow.sub (d a b : RegNum) : EncodesInRow.Statement (.sub d a b) :=
  row3R 0 a b d 5
theorem EncodesInRow.sha (d a b : RegNum) : EncodesInRow.Statement (.sha d a b) :=
  row3R 0 a b d 6
theorem EncodesInRow.shl (d a b : RegNum) : EncodesInRow.Statement (.shl d a b) :=
  row3R 0 a b d 7
theorem EncodesInRow.cmplt (d a b : RegNum) : EncodesInRow.Statement (.cmplt d a b) :=
  row3R 1 a b d 0
theorem EncodesInRow.cmple (d a b : RegNum) : EncodesInRow.Statement (.cmple d a b) :=
  row3R 1 a b d 1
theorem EncodesInRow.cmpeq (d a b : RegNum) : EncodesInRow.Statement (.cmpeq d a b) :=
  row3R 1 a b d 3
theorem EncodesInRow.cmpltu (d a b : RegNum) : EncodesInRow.Statement (.cmpltu d a b) :=
  row3R 1 a b d 4
theorem EncodesInRow.cmpleu (d a b : RegNum) : EncodesInRow.Statement (.cmpleu d a b) :=
  row3R 1 a b d 5
theorem EncodesInRow.addi (d a : RegNum) (n : BitVec 6) : EncodesInRow.Statement (.addi d a n) :=
  row2R 2 a d n
theorem EncodesInRow.ld (d a : RegNum) (n : BitVec 6) : EncodesInRow.Statement (.ld d a n) :=
  row2R 3 a d n
theorem EncodesInRow.st (a b : RegNum) (n : BitVec 6) : EncodesInRow.Statement (.st a b n) :=
  row2R 4 a b n
theorem EncodesInRow.ldb (d a : RegNum) (n : BitVec 6) : EncodesInRow.Statement (.ldb d a n) :=
  row2R 5 a d n
theorem EncodesInRow.stb (a b : RegNum) (n : BitVec 6) : EncodesInRow.Statement (.stb a b n) :=
  row2R 6 a b n
theorem EncodesInRow.jalr (d a : RegNum) : EncodesInRow.Statement (.jalr d a) :=
  row2R 7 a d 0
theorem EncodesInRow.bz (a : RegNum) (n : BitVec 8) : EncodesInRow.Statement (.bz a n) :=
  row1R 8 a false n
theorem EncodesInRow.bnz (a : RegNum) (n : BitVec 8) : EncodesInRow.Statement (.bnz a n) :=
  row1R 8 a true n
theorem EncodesInRow.movi (d : RegNum) (n : BitVec 8) : EncodesInRow.Statement (.movi d n) :=
  row1R 9 d false n
theorem EncodesInRow.movhi (d : RegNum) (n : BitVec 8) : EncodesInRow.Statement (.movhi d n) :=
  row1R 9 d true n
theorem EncodesInRow.inp (d : RegNum) (n : BitVec 8) : EncodesInRow.Statement (.inp d n) :=
  row1R 10 d false n
theorem EncodesInRow.out (n : BitVec 8) (a : RegNum) : EncodesInRow.Statement (.out n a) :=
  row1R 10 a true n

theorem LineAccepted.and (d a b : RegNum) : LineAccepted.Statement (.and d a b) := by
  simp [LineAccepted.Statement, disassemble, AsmLine.wf, AsmName.mnemonic, Instr.mnemonic, Mnemonic.form, Instr.asmOperands,
    AsmForm.accepts, regWf_fin]
theorem LineAccepted.or (d a b : RegNum) : LineAccepted.Statement (.or d a b) := by
  simp [LineAccepted.Statement, disassemble, AsmLine.wf, AsmName.mnemonic, Instr.mnemonic, Mnemonic.form, Instr.asmOperands,
    AsmForm.accepts, regWf_fin]
theorem LineAccepted.xor (d a b : RegNum) : LineAccepted.Statement (.xor d a b) := by
  simp [LineAccepted.Statement, disassemble, AsmLine.wf, AsmName.mnemonic, Instr.mnemonic, Mnemonic.form, Instr.asmOperands,
    AsmForm.accepts, regWf_fin]
theorem LineAccepted.not (d a : RegNum) : LineAccepted.Statement (.not d a) := by
  simp [LineAccepted.Statement, disassemble, AsmLine.wf, AsmName.mnemonic, Instr.mnemonic, Mnemonic.form, Instr.asmOperands,
    AsmForm.accepts, regWf_fin]
theorem LineAccepted.add (d a b : RegNum) : LineAccepted.Statement (.add d a b) := by
  simp [LineAccepted.Statement, disassemble, AsmLine.wf, AsmName.mnemonic, Instr.mnemonic, Mnemonic.form, Instr.asmOperands,
    AsmForm.accepts, regWf_fin]
theorem LineAccepted.sub (d a b : RegNum) : LineAccepted.Statement (.sub d a b) := by
  simp [LineAccepted.Statement, disassemble, AsmLine.wf, AsmName.mnemonic, Instr.mnemonic, Mnemonic.form, Instr.asmOperands,
    AsmForm.accepts, regWf_fin]
theorem LineAccepted.sha (d a b : RegNum) : LineAccepted.Statement (.sha d a b) := by
  simp [LineAccepted.Statement, disassemble, AsmLine.wf, AsmName.mnemonic, Instr.mnemonic, Mnemonic.form, Instr.asmOperands,
    AsmForm.accepts, regWf_fin]
theorem LineAccepted.shl (d a b : RegNum) : LineAccepted.Statement (.shl d a b) := by
  simp [LineAccepted.Statement, disassemble, AsmLine.wf, AsmName.mnemonic, Instr.mnemonic, Mnemonic.form, Instr.asmOperands,
    AsmForm.accepts, regWf_fin]
theorem LineAccepted.cmplt (d a b : RegNum) : LineAccepted.Statement (.cmplt d a b) := by
  simp [LineAccepted.Statement, disassemble, AsmLine.wf, AsmName.mnemonic, Instr.mnemonic, Mnemonic.form, Instr.asmOperands,
    AsmForm.accepts, regWf_fin]
theorem LineAccepted.cmple (d a b : RegNum) : LineAccepted.Statement (.cmple d a b) := by
  simp [LineAccepted.Statement, disassemble, AsmLine.wf, AsmName.mnemonic, Instr.mnemonic, Mnemonic.form, Instr.asmOperands,
    AsmForm.accepts, regWf_fin]
theorem LineAccepted.cmpeq (d a b : RegNum) : LineAccepted.Statement (.cmpeq d a b) := by
  simp [LineAccepted.Statement, disassemble, AsmLine.wf, AsmName.mnemonic, Instr.mnemonic, Mnemonic.form, Instr.asmOperands,
    AsmForm.accepts, regWf_fin]
theorem LineAccepted.cmpltu (d a b : RegNum) : LineAccepted.Statement (.cmpltu d a b) := by
  simp [LineAccepted.Statement, disassemble, AsmLine.wf, AsmName.mnemonic, Instr.mnemonic, Mnemonic.form, Instr.asmOperands,
    AsmForm.accepts, regWf_fin]
theorem LineAccepted.cmpleu (d a b : RegNum) : LineAccepted.Statement (.cmpleu d a b) := by
  simp [LineAccepted.Statement, disassemble, AsmLine.wf, AsmName.mnemonic, Instr.mnemonic, Mnemonic.form, Instr.asmOperands,
    AsmForm.accepts, regWf_fin]
theorem LineAccepted.addi (d a : RegNum) (n : BitVec 6) : LineAccepted.Statement (.addi d a n) := by
  simp [LineAccepted.Statement, disassemble, AsmLine.wf, AsmName.mnemonic, Instr.mnemonic, Mnemonic.form, Instr.asmOperands,
    AsmForm.accepts, regWf_fin, litWf_toInt6]
theorem LineAccepted.ld (d a : RegNum) (n : BitVec 6) : LineAccepted.Statement (.ld d a n) := by
  simp [LineAccepted.Statement, disassemble, AsmLine.wf, AsmName.mnemonic, Instr.mnemonic, Mnemonic.form, Instr.asmOperands,
    AsmForm.accepts, regWf_fin, litWf_toInt6]
theorem LineAccepted.st (a b : RegNum) (n : BitVec 6) : LineAccepted.Statement (.st a b n) := by
  simp [LineAccepted.Statement, disassemble, AsmLine.wf, AsmName.mnemonic, Instr.mnemonic, Mnemonic.form, Instr.asmOperands,
    AsmForm.accepts, regWf_fin, litWf_toInt6]
theorem LineAccepted.ldb (d a : RegNum) (n : BitVec 6) : LineAccepted.Statement (.ldb d a n) := by
  simp [LineAccepted.Statement, disassemble, AsmLine.wf, AsmName.mnemonic, Instr.mnemonic, Mnemonic.form, Instr.asmOperands,
    AsmForm.accepts, regWf_fin, litWf_toInt6]
theorem LineAccepted.stb (a b : RegNum) (n : BitVec 6) : LineAccepted.Statement (.stb a b n) := by
  simp [LineAccepted.Statement, disassemble, AsmLine.wf, AsmName.mnemonic, Instr.mnemonic, Mnemonic.form, Instr.asmOperands,
    AsmForm.accepts, regWf_fin, litWf_toInt6]
theorem LineAccepted.jalr (d a : RegNum) : LineAccepted.Statement (.jalr d a) := by
  simp [LineAccepted.Statement, disassemble, AsmLine.wf, AsmName.mnemonic, Instr.mnemonic, Mnemonic.form, Instr.asmOperands,
    AsmForm.accepts, regWf_fin]
theorem LineAccepted.bz (a : RegNum) (n : BitVec 8) : LineAccepted.Statement (.bz a n) := by
  simp [LineAccepted.Statement, disassemble, AsmLine.wf, AsmName.mnemonic, Instr.mnemonic, Mnemonic.form, Instr.asmOperands,
    AsmForm.accepts, regWf_fin, litWf_toInt8]
theorem LineAccepted.bnz (a : RegNum) (n : BitVec 8) : LineAccepted.Statement (.bnz a n) := by
  simp [LineAccepted.Statement, disassemble, AsmLine.wf, AsmName.mnemonic, Instr.mnemonic, Mnemonic.form, Instr.asmOperands,
    AsmForm.accepts, regWf_fin, litWf_toInt8]
theorem LineAccepted.movi (d : RegNum) (n : BitVec 8) : LineAccepted.Statement (.movi d n) := by
  simp [LineAccepted.Statement, disassemble, AsmLine.wf, AsmName.mnemonic, Instr.mnemonic, Mnemonic.form, Instr.asmOperands,
    AsmForm.accepts, regWf_fin, litWf_toInt8]
theorem LineAccepted.movhi (d : RegNum) (n : BitVec 8) : LineAccepted.Statement (.movhi d n) := by
  simp [LineAccepted.Statement, disassemble, AsmLine.wf, AsmName.mnemonic, Instr.mnemonic, Mnemonic.form, Instr.asmOperands,
    AsmForm.accepts, regWf_fin, litWf_toNat8]
theorem LineAccepted.inp (d : RegNum) (n : BitVec 8) : LineAccepted.Statement (.inp d n) := by
  simp [LineAccepted.Statement, disassemble, AsmLine.wf, AsmName.mnemonic, Instr.mnemonic, Mnemonic.form, Instr.asmOperands,
    AsmForm.accepts, regWf_fin, litWf_toNat8]
theorem LineAccepted.out (n : BitVec 8) (a : RegNum) : LineAccepted.Statement (.out n a) := by
  simp [LineAccepted.Statement, disassemble, AsmLine.wf, AsmName.mnemonic, Instr.mnemonic, Mnemonic.form, Instr.asmOperands,
    AsmForm.accepts, regWf_fin, litWf_toNat8]

end Sys2Proof.Laws
end

