-- ==== Sys2Proof/Laws/Step.lean ====
section
/-! SUPPORT. What each shared ending of an instruction can do, and what a step can do. -/

namespace Sys2Proof.Machine

/-- Everything `finishReg` does. -/
theorem finishReg_spec (s : State) (d : RegNum) (v : Word) : WritesOnlyReg s (s.finishReg d v) d v where
  dest := State.reg_finishReg_self s d v
  pc := rfl
  regs := fun _ h => State.reg_finishReg_ne s v h
  memory := fun _ => rfl
  outputs := fun _ => rfl
  trace := rfl

/-- Everything `setPc` does. -/
theorem setPc_spec (s : State) (t : Word) : WritesOnlyPc s (s.setPc t) t where
  pc := rfl
  regs := fun _ => rfl
  memory := fun _ => rfl
  outputs := fun _ => rfl
  trace := rfl

/-- A byte store leaves every other byte. -/
theorem setByte_sameMemoryBut (s : State) (a : Word) (v : Byte) : SameMemoryBut [a] s (s.setByte a v) := by
  intro x hx
  have h : x ≠ a := by simpa using hx
  simp [State.byte_setByte, h]

/-- A word store leaves every byte but its two. -/
theorem setWord_sameMemoryBut (s : State) (a v : Word) : SameMemoryBut [a, a + 1#16] s (s.setWord a v) := by
  intro x hx
  obtain ⟨h0, h1⟩ : x ≠ a ∧ x ≠ a + 1#16 := by simpa using hx
  simp [State.byte_setWord, h0, h1]

/-- What the two bytes at the pc decode to. -/
theorem decode_fetchBytes (s : State) :
    decode s.fetchBytes =
      match decodeWord s.fetchWord with
      | .ok i => .ok (i, [])
      | .rejected r => .rejected r := rfl

/-- Where a step answers a next state, the pc was even, the word at it spelled an instruction, and the next state is that
of the instruction. -/
theorem step_next {s t : State} (h : step s = .next t) :
    isEven s.pc = true ∧ ∃ i, decodeWord s.fetchWord = .ok i ∧ exec i s = .next t := by
  unfold step at h
  split at h
  · next he =>
    rw [decode_fetchBytes] at h
    cases hd : decodeWord s.fetchWord with
    | ok i => rw [hd] at h; exact ⟨he, i, rfl, h⟩
    | rejected r => rw [hd] at h; cases h
  · cases h

end Sys2Proof.Machine
end

