-- ==== Sys2Proof/Tests/Slice0.lean ====
section
/-! SUPPORT. The model's own tests. Every expected value is one of spec/95_test_vectors.md or of the rule a comment names,
none the model's own answer. First decoding, word by word; then the checks of WellFormed; then one small step per
instruction; last the witnesses that the hypotheses of the statements can be met. -/

namespace Sys2Proof.Tests

open Sys2Proof.Machine

/-! Decoding: one word per constructor, written bit by bit from 30_encoding.md R83 (95_test_vectors.md 2.1, 2.2). -/

theorem test_decode_and : decodeWord 0b0000001010011000#16 = .ok (.and 3 1 2) := by decide
theorem test_decode_or : decodeWord 0b0000001010011001#16 = .ok (.or 3 1 2) := by decide
theorem test_decode_xor : decodeWord 0b0000001010011010#16 = .ok (.xor 3 1 2) := by decide
theorem test_decode_not : decodeWord 0b0000001000011011#16 = .ok (.not 3 1) := by decide
theorem test_decode_not_any_b : decodeWord 0b0000001111011011#16 = .ok (.not 3 1) := by decide
theorem test_decode_add : decodeWord 0b0000001010011100#16 = .ok (.add 3 1 2) := by decide
theorem test_decode_sub : decodeWord 0b0000001010011101#16 = .ok (.sub 3 1 2) := by decide
theorem test_decode_sha : decodeWord 0b0000001010011110#16 = .ok (.sha 3 1 2) := by decide
theorem test_decode_shl : decodeWord 0b0000001010011111#16 = .ok (.shl 3 1 2) := by decide
theorem test_decode_cmplt : decodeWord 0b0001001010011000#16 = .ok (.cmplt 3 1 2) := by decide
theorem test_decode_cmple : decodeWord 0b0001001010011001#16 = .ok (.cmple 3 1 2) := by decide
theorem test_decode_cmpeq : decodeWord 0b0001001010011011#16 = .ok (.cmpeq 3 1 2) := by decide
theorem test_decode_cmpltu : decodeWord 0b0001001010011100#16 = .ok (.cmpltu 3 1 2) := by decide
theorem test_decode_cmpleu : decodeWord 0b0001001010011101#16 = .ok (.cmpleu 3 1 2) := by decide
theorem test_decode_addi : decodeWord 0b0010001011111111#16 = .ok (.addi 3 1 0b111111#6) := by decide
theorem test_decode_ld : decodeWord 0b0011001011111110#16 = .ok (.ld 3 1 0b111110#6) := by decide
theorem test_decode_st : decodeWord 0b0100001010000100#16 = .ok (.st 1 2 0b000100#6) := by decide
theorem test_decode_ldb : decodeWord 0b0101001011000101#16 = .ok (.ldb 3 1 0b000101#6) := by decide
theorem test_decode_stb : decodeWord 0b0110001010100000#16 = .ok (.stb 1 2 0b100000#6) := by decide
theorem test_decode_jalr : decodeWord 0b0111110111000000#16 = .ok (.jalr 7 6) := by decide
theorem test_decode_jalr_any_low : decodeWord 0b0111110111111111#16 = .ok (.jalr 7 6) := by decide
theorem test_decode_bz : decodeWord 0b1000001011111101#16 = .ok (.bz 1 0b11111101#8) := by decide
theorem test_decode_bnz : decodeWord 0b1000001111111101#16 = .ok (.bnz 1 0b11111101#8) := by decide
theorem test_decode_movi : decodeWord 0b1001011011111111#16 = .ok (.movi 3 0b11111111#8) := by decide
theorem test_decode_movhi : decodeWord 0b1001011110010010#16 = .ok (.movhi 3 0b10010010#8) := by decide
theorem test_decode_inp : decodeWord 0b1010011011111111#16 = .ok (.inp 3 0b11111111#8) := by decide
theorem test_decode_out : decodeWord 0b1010011111111111#16 = .ok (.out 0b11111111#8 3) := by decide
theorem test_decode_function2 : decodeWord 0x1002#16 = .rejected (.unassignedFunction 0x1002#16) := by decide
theorem test_decode_function7 : decodeWord 0x1FFF#16 = .rejected (.unassignedFunction 0x1FFF#16) := by decide
theorem test_decode_opcodeB : decodeWord 0xB000#16 = .rejected (.unassignedOpcodeB 0xB000#16) := by decide
theorem test_decode_extension : decodeWord 0xC000#16 = .rejected (.futureExtension 0xC000#16) := by decide

/-- Little endian (P1: the bytes 05 92 are `MOVI R1, 5`), and the bytes after the instruction are left over. -/
theorem test_decode_bytes : decode [0x05#8, 0x92#8, 0x00#8] = .ok (.movi 1 0x05#8, [0x00#8]) := by decide
theorem test_decode_one_byte : decode [0x05#8] = .rejected .tooShort := by decide
theorem test_decode_table_word : decodeTableWord 16 0x2FDF = some (.addi 7 7 0b011111#6) := by decide
theorem test_encode_extremes : [encode (.addi 0 0 0b100000#6), encode (.stb 0 7 0b111111#6), encode (.cmpeq 7 0 0),
    encode (.jalr 7 7), encode (.out 0x00#8 0)] = [0x2020#16, 0x61FF#16, 0x103B#16, 0x7FC0#16, 0xA100#16] := by decide

/-! The checks of WellFormed: one ill-formed term for each, refused. -/

theorem test_wf_register : AsmLine.wf ⟨.op .add, [.reg 8, .reg 1, .reg 2]⟩ = false := by decide
theorem test_wf_n6_high : AsmLine.wf ⟨.op .addi, [.reg 3, .reg 1, .lit 64]⟩ = false := by decide
theorem test_wf_n6_low : AsmLine.wf ⟨.op .ld, [.reg 3, .disp (-33) 1]⟩ = false := by decide
theorem test_wf_n8_high : AsmLine.wf ⟨.op .movi, [.reg 3, .lit 256]⟩ = false := by decide
theorem test_wf_n8_low : AsmLine.wf ⟨.op .bz, [.reg 3, .lit (-129)]⟩ = false := by decide
theorem test_wf_order : AsmLine.wf ⟨.op .out, [.reg 3, .lit 5]⟩ = false := by decide
theorem test_wf_count : AsmLine.wf ⟨.op .not, [.reg 3, .reg 1, .reg 2]⟩ = false := by decide
theorem test_wf_launch : Launch.wf { Config.defaultLaunch with resetPc := 0x0001#16 } = false := by decide
theorem test_wf_ends : endsWf [0x000A#16, 0x000B#16] = false := by decide

/-- R89: `MOVI R1, -1` and `MOVI R1, 0xFF` both give the field 0xFF. -/
theorem test_assemble_literals : assemble ⟨.op .movi, [.reg 1, .lit (-1)]⟩ = some (.movi 1 0xFF#8) ∧
    assemble ⟨.op .movi, [.reg 1, .lit 0xFF]⟩ = some (.movi 1 0xFF#8) := by decide

/-- R88, R91: a store names its memory operand first; CMPL is CMPLE. -/
theorem test_assemble_forms : assemble ⟨.op .st, [.disp 4 1, .reg 2]⟩ = some (.st 1 2 0b000100#6) ∧
    assemble ⟨.cmpl, [.reg 3, .reg 1, .reg 2]⟩ = some (.cmple 3 1 2) ∧
    assemble ⟨.cmplu, [.reg 3, .reg 1, .reg 2]⟩ = some (.cmpleu 3 1 2) := by decide

/-- R89: how a literal is written. -/
theorem test_read_literal : readLiteral ['-', '3', '2'] = some (-32) ∧ readLiteral ['0', 'x', 'F', 'f'] = some 255 ∧
    readLiteral ['0', 'x'] = none ∧ readLiteral ['4', 'G'] = none := by decide

/-- Lines of 95_test_vectors.md 2.1, read as text. -/
theorem test_assemble_text : assembleText "ADDI R3, R1, -1".toList = some (.addi 3 1 0b111111#6) ∧
    assembleText "ST 4(R1), R2".toList = some (.st 1 2 0b000100#6) ∧
    assembleText "LD R3, -2(R1)".toList = some (.ld 3 1 0b111110#6) ∧
    assembleText "MOVHI R3, 0x92".toList = some (.movhi 3 0x92#8) ∧
    assembleText "OUT 255, R3".toList = some (.out 0xFF#8 3) ∧
    assembleText "ADD R3, R1, R8".toList = none := by decide

/-! One small step per instruction. -/

/-- The next state of a result, if it is one. -/
def after : Result → Option State
  | .next s => some s
  | _ => none

/-- The reset state with values in R1 and R2. -/
def with12 (x y : Word) : State := (State.reset.setReg 1 x).setReg 2 y

/-- What an instruction leaves in R3 when R1 and R2 hold `x` and `y`. -/
def result3 (i : Instr) (x y : Word) : Option Word := (after (exec i (with12 x y))).map (·.reg 3)

/-- The pc an instruction leaves, from the pc `p` with `x` in R1. -/
def pcAfter (i : Instr) (p x : Word) : Option Word := (after (exec i ((State.reset.setReg 1 x).setPc p))).map (·.pc)

-- 95_test_vectors.md 2.3
theorem test_and : result3 (.and 3 1 2) 0xF0F0#16 0x3C3C#16 = some 0x3030#16 := by decide
theorem test_or : result3 (.or 3 1 2) 0xF0F0#16 0x3C3C#16 = some 0xFCFC#16 := by decide
theorem test_xor : result3 (.xor 3 1 2) 0xF0F0#16 0x3C3C#16 = some 0xCCCC#16 := by decide
theorem test_not : result3 (.not 3 1) 0x1234#16 0x00FF#16 = some 0xEDCB#16 := by decide
theorem test_add_wraps : result3 (.add 3 1 2) 0xFFFF#16 0x0001#16 = some 0x0000#16 := by decide
theorem test_add_same_register : (after (exec (.add 1 1 1) (with12 0x1234#16 0))).map (·.reg 1) = some 0x2468#16 := by decide
theorem test_sub : result3 (.sub 3 1 2) 0x1234#16 0x00FF#16 = some 0x1135#16 := by decide
theorem test_sub_wraps : result3 (.sub 3 1 2) 0x0000#16 0x0001#16 = some 0xFFFF#16 := by decide
-- 95_test_vectors.md 2.4
theorem test_sha_floor : result3 (.sha 3 1 2) 0xFFFB#16 0x001E#16 = some 0xFFFE#16 := by decide
theorem test_sha_all_sign : result3 (.sha 3 1 2) 0x8000#16 0x0010#16 = some 0xFFFF#16 := by decide
theorem test_shl_zero_fill : result3 (.shl 3 1 2) 0x8000#16 0x001F#16 = some 0x4000#16 := by decide
theorem test_shl_ignores_bit5 : result3 (.shl 3 1 2) 0x1234#16 0x0024#16 = some 0x2340#16 := by decide
-- 95_test_vectors.md 2.5
theorem test_addi_down : result3 (.addi 3 1 0b100000#6) 0x0010#16 0 = some 0xFFF0#16 := by decide
theorem test_addi_up : result3 (.addi 3 1 0b011111#6) 0x7FFF#16 0 = some 0x801E#16 := by decide
-- 95_test_vectors.md 2.6
theorem test_cmplt : result3 (.cmplt 3 1 2) 0x8000#16 0x7FFF#16 = some 0x0001#16 := by decide
theorem test_cmple_equal : result3 (.cmple 3 1 2) 0x8000#16 0x8000#16 = some 0x0001#16 := by decide
theorem test_cmpeq : result3 (.cmpeq 3 1 2) 0x0001#16 0x0002#16 = some 0x0000#16 := by decide
theorem test_cmpltu : result3 (.cmpltu 3 1 2) 0x8000#16 0x7FFF#16 = some 0x0000#16 := by decide
theorem test_cmpleu_equal : result3 (.cmpleu 3 1 2) 0x0005#16 0x0005#16 = some 0x0001#16 := by decide
-- 95_test_vectors.md 2.7
theorem test_movi_negative : result3 (.movi 3 0x80#8) 0 0 = some 0xFF80#16 := by decide
theorem test_movhi_keeps_low : (after (exec (.movhi 1 0x92#8) (with12 0x0034#16 0))).map (·.reg 1) = some 0x9234#16 := by
  decide

/-- The memory before the rows of 95_test_vectors.md 2.8, with `x` and `y` in R1 and R2. -/
def vectorMemory (x y : Word) : State :=
  { with12 x y with mem := loadImage [(0x0040#16, 0x34#8), (0x0041#16, 0x92#8), (0x0042#16, 0x7F#8), (0x0043#16, 0x80#8),
      (0xFFFE#16, 0xCD#8), (0xFFFF#16, 0xAB#8), (0x0000#16, 0x11#8), (0x0001#16, 0x22#8)] }

-- 95_test_vectors.md 2.8
theorem test_ld_odd : (after (exec (.ld 2 1 0b000001#6) (vectorMemory 0x0040#16 0))).map (·.reg 2) = some 0x9234#16 := by decide
theorem test_ld_wraps : (after (exec (.ld 2 1 0b000001#6) (vectorMemory 0xFFFF#16 0))).map (·.reg 2) = some 0x2211#16 := by
  decide
theorem test_ldb_signed : (after (exec (.ldb 2 1 0b000001#6) (vectorMemory 0x0040#16 0))).map (·.reg 2) = some 0xFF92#16 := by
  decide
theorem test_ldb_positive : (after (exec (.ldb 2 1 0b000010#6) (vectorMemory 0x0040#16 0))).map (·.reg 2) = some 0x007F#16 := by
  decide
theorem test_st_odd : (after (exec (.st 1 2 0b000001#6) (vectorMemory 0x0050#16 0xBEEF#16))).map
    (fun t => (t.byte 0x0050#16, t.byte 0x0051#16, t.byte 0x0052#16)) = some (0xEF#8, 0xBE#8, 0x00#8) := by decide
theorem test_st_top : (after (exec (.st 1 2 0b111111#6) (vectorMemory 0x0000#16 0xBEEF#16))).map
    (fun t => (t.byte 0xFFFE#16, t.byte 0xFFFF#16, t.byte 0x0000#16)) = some (0xEF#8, 0xBE#8, 0x11#8) := by decide
theorem test_stb : (after (exec (.stb 1 2 0b000001#6) (vectorMemory 0x0040#16 0xBEEF#16))).map
    (fun t => (t.byte 0x0040#16, t.byte 0x0041#16)) = some (0x34#8, 0xEF#8) := by decide
theorem test_stb_down : (after (exec (.stb 1 2 0b100000#6) (vectorMemory 0x0040#16 0xBEEF#16))).map
    (fun t => t.byte 0x0020#16) = some 0xEF#8 := by decide

/-- Writing the byte an unlisted address reads as takes the entry out: equal memories are equal data. -/
theorem test_memory_canonical : Memory.write [(0x40, 0x34#8), (0x41, 0x92#8)] 0x40 0x00#8 = [(0x41, 0x92#8)] := by decide

-- 95_test_vectors.md 2.9: IN with the answer 0x0007 of port 3; OUT to port 5, then again
theorem test_inp_receives : let t := State.reset.receive 1 3 0x0007#16
    t.reg 1 = 0x0007#16 ∧ t.pc = 0x0002#16 ∧ t.trace = [.input 3 0x0007#16] := by decide
theorem test_inp_asks_port : after (exec (.inp 1 0x03#8) State.reset) =
    some (State.reset.receive 1 3 (Config.inputOracle 3 [])) := rfl
theorem test_out : (after (exec (.out 0x05#8 2) (with12 0 0x000E#16))).map (fun t => (t.out 5, t.trace)) =
    some (0x000E#16, [.output 5 0x000E#16]) := by decide
theorem test_out_both_events : (after (exec (.out 0x05#8 1) ((with12 0x0001#16 0).setOut 5 0x000E#16))).map
    (fun t => (t.out 5, t.trace)) = some (0x0001#16, [.output 5 0x000E#16, .output 5 0x0001#16]) := by decide

-- 95_test_vectors.md 2.10
theorem test_bz_taken : pcAfter (.bz 1 0xFD#8) 0x0008#16 0x0000#16 = some 0x0004#16 := by decide
theorem test_bz_not_taken : pcAfter (.bz 1 0xFD#8) 0x0008#16 0x0001#16 = some 0x000A#16 := by decide
theorem test_bnz_taken : pcAfter (.bnz 1 0x80#8) 0x0100#16 0x8000#16 = some 0x0002#16 := by decide
theorem test_bnz_wraps : pcAfter (.bnz 1 0x01#8) 0xFFFE#16 0x0001#16 = some 0x0002#16 := by decide
theorem test_jalr_odd : (after (exec (.jalr 7 6) ((State.reset.setReg 6 0x0011#16).setPc 0x0004#16))).map
    (fun t => (t.pc, t.reg 7)) = some (0x0010#16, 0x0006#16) := by decide
theorem test_jalr_same : (after (exec (.jalr 6 6) ((State.reset.setReg 6 0x0201#16).setPc 0x0100#16))).map
    (fun t => (t.pc, t.reg 6)) = some (0x0200#16, 0x0102#16) := by decide

/-! Steps. -/

/-- The reset state at the pc `p` with the word `w` there. -/
def atWord (p w : Word) : State := (State.reset.setPc p).setWord p w

/-- The fault of a result, if it is one. -/
def faultOf : Result → Option Fault
  | .fault r => some r
  | _ => none

/-- The final state of a run, if it is over. -/
def finalOf : RunResult → Option State
  | .over s => some s
  | _ => none

theorem next_of_after {r : Result} (h : (after r).isSome = true) : ∃ t, r = .next t := by
  cases r with
  | next t => exact ⟨t, rfl⟩
  | fault f => cases h
  | refused f => cases h

-- 95_test_vectors.md 2.11
theorem test_step_reserved : faultOf (step (atWord 0x0020#16 0x1002#16)) = some (.reservedInstruction 0x1002#16) := by decide
theorem test_step_movi : (after (step (atWord 0x0000#16 0x9205#16))).map (fun t => (t.reg 1, t.pc)) =
    some (0x0005#16, 0x0002#16) := by decide
theorem test_step_placed : (after (step (State.reset.withFetchWord 16 0x96FF))).map (·.reg 3) = some 0xFFFF#16 := by decide
/-- R197: the run is over before the instruction at END is fetched. -/
theorem test_run_over : (finalOf (runUntil [0x0002#16] 5 (atWord 0x0000#16 0x9205#16))).map (fun t => (t.pc, t.reg 1)) =
    some (0x0002#16, 0x0005#16) := by decide

/-! Witnesses: for each statement with hypotheses, a state and operands that meet them all, clause by clause. -/

theorem witness_ShaShiftsSigned : ((with12 0x8001#16 0x0010#16).reg 2).extractLsb' 0 5 = 0x10#5 ∧ (0x10#5).toInt = -16 ∧
    ((with12 0x8001#16 0x000F#16).reg 2).extractLsb' 0 5 = 0x0F#5 ∧ (0x0F#5).toInt = 15 := by decide
theorem witness_ShlShiftsUnsigned : ((with12 0x8001#16 0x001F#16).reg 2).extractLsb' 0 5 = 0x1F#5 ∧ (0x1F#5).toInt = -1 ∧
    ((with12 0x8001#16 0x0020#16).reg 2).extractLsb' 0 5 = 0x00#5 ∧ (0x00#5).toInt = 0 := by decide
theorem witness_WordsAreLittleEndian : isEven 0xFFFE#16 = true := by decide
theorem witness_OddWordAddressActsAsEven :
    (with12 0x0040#16 0).reg 1 + (0b000000#6).signExtend 16 = 2#16 * 0x0020#16 ∧
    (with12 0x0040#16 0).reg 1 + (0b000001#6).signExtend 16 = 2#16 * 0x0020#16 + 1#16 := by decide
theorem witness_StoreThenLoadReturnsValue :
    (with12 0x0050#16 0xBEEF#16).ea 1 0b000000#6 = (with12 0x0050#16 0xBEEF#16).wordAddr 1 0b000001#6 ∧
    (with12 0x0050#16 0xBEEF#16).ea 1 0b000001#6 = (with12 0x0050#16 0xBEEF#16).wordAddr 1 0b000001#6 + 1#16 := by decide
theorem witness_TargetsWrapAndAreEven : isEven (State.reset.setPc 0xFFFE#16).pc = true := by decide
theorem witness_BranchToItselfLoops : isEven (atWord 0x0100#16 0x80FF#16).pc = true ∧
    (atWord 0x0100#16 0x80FF#16).fetchWord = word1R 8#4 0 false 0xFF#8 ∧ (atWord 0x0100#16 0x80FF#16).reg 0 = 0x0000#16 := by
  decide
theorem witness_OnlySourcesAreRead : (3 : RegNum) ∉ Instr.sources (.add 3 1 2) ∧ (4 : RegNum) ∉ Instr.sources (.add 3 1 2) := by
  decide
theorem witness_OnlyNamedStateChanges : (Instr.add 3 1 2).dest ≠ some 1 ∧
    (after (exec (.st 1 2 0#6) (with12 0x0050#16 0xBEEF#16))).map (·.mem) ≠ some (with12 0x0050#16 0xBEEF#16).mem ∧
    (after (exec (.out 0x05#8 2) (with12 0 0x000E#16))).map (·.output[5]) ≠ some ((with12 0 0x000E#16).output[5]) := by decide
theorem witness_StepRunsDecodedInstruction : isEven (atWord 0xFFFE#16 0x029C#16).pc = true ∧
    decodeWord ((atWord 0xFFFE#16 0x029C#16).byte 0xFFFF#16 ++ (atWord 0xFFFE#16 0x029C#16).byte 0xFFFE#16) =
      .ok (.add 3 1 2) ∧ isEven State.reset.pc = true ∧ decodeWord 0x029C#16 = .ok (.add 3 1 2) := by decide
theorem witness_StepFaultsExactlyOnUnassignedWord : isEven (atWord 0x0020#16 0xB000#16).pc = true ∧
    0xB000#16 ≤ (atWord 0x0020#16 0xB000#16).fetchWord ∧
    (atWord 0x0020#16 0x1FFF#16).fetchWord &&& 0xF007#16 ∈ [0x1002#16, 0x1006#16, 0x1007#16] ∧
    ¬((atWord 0x0020#16 0xAFFF#16).fetchWord &&& 0xF007#16 ∈ [0x1002#16, 0x1006#16, 0x1007#16] ∨
      0xB000#16 ≤ (atWord 0x0020#16 0xAFFF#16).fetchWord) := by decide
theorem witness_StepFromOddPcIsRefused : isEven (State.reset.setPc 0x0001#16).pc = false := by decide
theorem witness_StepKeepsInvariant : (atWord 0x0000#16 0x4280#16).Inv ∧
    ∃ t, step (atWord 0x0000#16 0x4280#16) = .next t :=
  ⟨⟨by decide, by decide⟩, next_of_after (by decide)⟩
theorem witness_StepKeepsOutputsAsTraced : (atWord 0x0000#16 0xA505#16).OutputsFollowTrace State.reset.output ∧
    ∃ t, step (atWord 0x0000#16 0xA505#16) = .next t :=
  ⟨fun _ => rfl, next_of_after (by decide)⟩
theorem witness_StepKeepsInputsAsAnswered : (atWord 0x0000#16 0xA203#16).InputsFollowOracle ∧
    ∃ t, step (atWord 0x0000#16 0xA203#16) = .next t :=
  ⟨fun before after p v h => by simp [atWord, State.reset] at h,
    next_of_after (by decide)⟩
theorem witness_OutputsAreNeverRead : State.SameButOutputs State.reset { State.reset with output := Vector.replicate 256 1#16 } ∧
    State.reset ≠ { State.reset with output := Vector.replicate 256 1#16 } :=
  ⟨⟨rfl, rfl, rfl, rfl⟩, fun h => absurd (congrArg (fun s => s.out 0) h) (by simp [State.out, State.reset])⟩

/-- `ST 0(R1), R2` at 0x0000 with 0x0002 in R1 and the word of `MOVI R3, 0x55` in R2 (95_test_vectors.md P5). -/
def selfModifying : State := ((atWord 0x0000#16 0x4280#16).setReg 1 0x0002#16).setReg 2 0x9655#16
theorem witness_StoreIsSeenByNextFetch : isEven selfModifying.pc = true ∧
    decodeWord selfModifying.fetchWord = .ok (.st 1 2 0b000000#6) ∧ selfModifying.wordAddr 1 0b000000#6 = selfModifying.pc + 2#16 ∧
    decodeWord (selfModifying.reg 2) = .ok (.movi 3 0x55#8) := by decide

theorem witness_EncodeOfDecodeRestoresUsedBits : decodeWord 0x03DB#16 = .ok (.not 3 1) ∧ decodeWord 0x7DFF#16 = .ok (.jalr 7 6) ∧
    decodeWord 0xAFFF#16 = .ok (.out 0xFF#8 7) := by decide
theorem witness_DecodeFollowsOpcodeTable : 0xAFFF#16 &&& Mnemonic.out.mask = Mnemonic.out.matchBits := by decide
theorem witness_OnlyDecidingFieldsSelect : opcodeField 0x0298#16 = opcodeField 0x0FF8#16 ∧
    functionField 0x0298#16 = functionField 0x0FF8#16 ∧ decodeWord 0x0298#16 = .ok (.and 3 1 2) ∧
    opcodeField 0xA100#16 = opcodeField 0xAFFF#16 ∧ extensionField 0xA100#16 = extensionField 0xAFFF#16 ∧
    decodeWord 0xA100#16 = .ok (.out 0x00#8 0) := by decide
theorem witness_UnassignedWordsAreRejected : decodeWord 0x1006#16 = .rejected (.unassignedFunction 0x1006#16) ∧
    decodeWord 0xBFFF#16 = .rejected (.unassignedOpcodeB 0xBFFF#16) ∧
    decodeWord 0xC000#16 = .rejected (.futureExtension 0xC000#16) := by decide
theorem witness_LaunchGivesLaunchState : isEven (Launch.resetPc Config.defaultLaunch) = true ∧
    isEven (Launch.resetPc { Config.defaultLaunch with resetPc := 0xFFFF#16 }) = false ∧
    Launch.initMem { Config.defaultLaunch with initMem := [(0#16, 1#8), (0#16, 2#8)] } = [(0#16, 1#8)] ++ (0#16, 2#8) :: [] ∧
    ∀ c ∈ ([] : List (Word × Byte)), c.1 ≠ 0#16 :=
  ⟨by decide, by decide, rfl, by simp⟩
theorem witness_RunIsOverAtFirstEnd : (State.reset.setPc 0x000A#16).pc ∈ [0x000A#16] ∧
    StepsOutside [0x000A#16] 0 (State.reset.setPc 0x000A#16) (State.reset.setPc 0x000A#16) :=
  ⟨by decide, .stay _⟩
theorem witness_CanonicalMemoryIsDeterminedByReads : Memory.wf [(0x40, 0x34#8), (0xFFFF, 0x92#8)] ∧
    Memory.wf (Memory.write [(0xFFFF, 0x92#8)] 0x40 0x34#8) ∧
    ∀ a : Word, Memory.read [(0x40, 0x34#8), (0xFFFF, 0x92#8)] a.toNat =
      Memory.read (Memory.write [(0xFFFF, 0x92#8)] 0x40 0x34#8) a.toNat :=
  ⟨by decide, by decide, fun _ => rfl⟩

end Sys2Proof.Tests
end

/-! The pc after every instruction (00_scope.md R12, 10_state.md R25). -/

namespace Sys2Proof.Machine

@[simp] theorem isZero_eq_true_iff (x : Word) : isZero x = true ↔ x = 0x0000#16 := decide_eq_true_iff

/-- BZ with its test as a proposition (R161). -/
theorem exec_bz (a : RegNum) (n : BitVec 8) (s : State) :
    exec (.bz a n) s = .next (s.setPc (if s.reg a = 0x0000#16 then s.branchTarget n else s.nextPc)) := by
  simp [exec, execBz]

/-- BNZ with its test as a proposition (R162). -/
theorem exec_bnz (a : RegNum) (n : BitVec 8) (s : State) :
    exec (.bnz a n) s = .next (s.setPc (if s.reg a = 0x0000#16 then s.nextPc else s.branchTarget n)) := by
  simp [exec, execBnz]

/-- Settles O28, by cases on the instruction: a control transfer ends in `setPc`, a store and OUT in `advance`, IN in
`receive`, and every other instruction in `finishReg`. -/
theorem everyInstructionCompletesAndMovesPc : Obligations.EveryInstructionCompletesAndMovesPc := by
  intro i s
  cases i with
  | bz a n => exact ⟨_, exec_bz a n s, State.setPc_pc _ _⟩
  | bnz a n => exact ⟨_, exec_bnz a n s, State.setPc_pc _ _⟩
  | jalr d a => exact ⟨_, rfl, State.setPc_pc _ _⟩
  | st | stb | out => exact ⟨_, rfl, State.advance_pc _⟩
  | inp => exact ⟨_, rfl, State.receive_pc _ _ _ _⟩
  | _ => exact ⟨_, rfl, State.finishReg_pc _ _ _⟩

end Sys2Proof.Machine

/-! Even addresses and the two bytes of a word (20_memory.md R40, R43, R44). -/

namespace Sys2Proof.Machine

theorem isEven_eq_true_iff (a : Word) : isEven a = true ↔ a.toNat % 2 = 0 := by
  simp [isEven, BitVec.getLsbD, Nat.testBit_zero]

/-- The successor of an even address does not wrap, since the last address is odd. -/
theorem toNat_succ_of_isEven {a : Word} (h : isEven a = true) : (a + 1#16).toNat = a.toNat + 1 := by
  have hmod := (isEven_eq_true_iff a).mp h
  have hlt := a.isLt
  rw [BitVec.toNat_add, BitVec.toNat_ofNat]
  omega

theorem clearBit0_eq_shift (v : Word) : clearBit0 v = v >>> 1 <<< 1 := by
  have hmask : 0xFFFE#16 = BitVec.allOnes 16 <<< 1 := by decide
  rw [clearBit0, hmask, BitVec.shiftLeft_ushiftRight]

theorem toNat_clearBit0 (v : Word) : (clearBit0 v).toNat = 2 * (v.toNat / 2) := by
  have hlt := v.isLt
  rw [clearBit0_eq_shift, BitVec.toNat_shiftLeft, BitVec.toNat_ushiftRight, Nat.shiftRight_eq_div_pow, Nat.shiftLeft_eq]
  omega

@[simp] theorem clearBit0_double (m : Word) : clearBit0 (2#16 * m) = 2#16 * m := by
  apply BitVec.eq_of_toNat_eq
  rw [toNat_clearBit0, BitVec.toNat_mul, BitVec.toNat_ofNat]
  omega

@[simp] theorem clearBit0_double_succ (m : Word) : clearBit0 (2#16 * m + 1#16) = 2#16 * m := by
  apply BitVec.eq_of_toNat_eq
  rw [toNat_clearBit0, BitVec.toNat_add, BitVec.toNat_mul, BitVec.toNat_ofNat, BitVec.toNat_ofNat]
  omega

/-- LD depends on its base and displacement through the word address alone (R44). -/
theorem exec_ld_congr (d : RegNum) {a a' : RegNum} {n n' : BitVec 6} {s : State}
    (h : s.wordAddr a n = s.wordAddr a' n') : exec (.ld d a n) s = exec (.ld d a' n') s := by
  simp only [exec, execLd, h]

/-- ST depends on its base and displacement through the word address alone (R44). -/
theorem exec_st_congr (b : RegNum) {a a' : RegNum} {n n' : BitVec 6} {s : State}
    (h : s.wordAddr a n = s.wordAddr a' n') : exec (.st a b n) s = exec (.st a' b n') s := by
  simp only [exec, execSt, h]

/-- Settles O18: clearing bit 0 takes both computed addresses to 2m, and LD and ST depend on the word address alone. -/
theorem oddWordAddressActsAsEven : Obligations.OddWordAddressActsAsEven := by
  intro d a a' b n n' s m heven hodd
  have haddr : s.wordAddr a n = 2#16 * m := (congrArg clearBit0 heven).trans (clearBit0_double m)
  have haddr' : s.wordAddr a' n' = 2#16 * m := (congrArg clearBit0 hodd).trans (clearBit0_double_succ m)
  have hsame : s.wordAddr a' n' = s.wordAddr a n := haddr'.trans haddr.symm
  exact ⟨haddr, haddr', ⟨_, rfl, exec_ld_congr d hsame⟩, ⟨_, rfl, exec_st_congr b hsame⟩⟩

@[simp] theorem State.word_low (s : State) (k : Word) : (s.word k).extractLsb' 0 8 = s.byte k :=
  BitVec.extractLsb'_append_eq_right

@[simp] theorem State.word_high (s : State) (k : Word) : (s.word k).extractLsb' 8 8 = s.byte (k + 1#16) :=
  BitVec.extractLsb'_append_eq_left

@[simp] theorem State.byte_setWord_self (s : State) (k v : Word) : (s.setWord k v).byte k = v.extractLsb' 0 8 := by
  simp [State.byte_setWord, (word_succ_ne k).symm]

@[simp] theorem State.byte_setWord_succ (s : State) (k v : Word) :
    (s.setWord k v).byte (k + 1#16) = v.extractLsb' 8 8 := by
  simp [State.byte_setWord]

/-- Settles O13, from the bytes of a word read and of a word stored; only that `k + 1` does not wrap needs `k` even. -/
theorem wordsAreLittleEndian : Obligations.WordsAreLittleEndian := fun s k v h =>
  ⟨toNat_succ_of_isEven h, s.word_low k, s.word_high k, s.byte_setWord_self k v, s.byte_setWord_succ k v⟩

end Sys2Proof.Machine

/-! Which fields of a word select its instruction, and the rows of the opcode table (30_encoding.md R78 to R84). -/

namespace Sys2Proof.Machine

open Sys2Proof.Laws

/-! What the bits under each of the three masks of R83 are. -/

/-- A word is the five fields of format 3R, one after the other (R72). -/
theorem word3R_fields (w : Word) :
    word3R (opcodeField w) (regField9 w) (regField6 w) (regField3 w) (functionField w) = w := by
  simp only [word3R, opcodeField, regField9, regField6, regField3, functionField, BitVec.ofFin_toFin]
  rw [BitVec.extractLsb'_append_extractLsb'_eq_extractLsb' (rfl : 12 = 9 + 3),
    BitVec.extractLsb'_append_extractLsb'_eq_extractLsb' (rfl : 9 = 6 + 3),
    BitVec.extractLsb'_append_extractLsb'_eq_extractLsb' (rfl : 6 = 3 + 3),
    BitVec.extractLsb'_append_extractLsb'_eq_extractLsb' (rfl : 3 = 0 + 3)]
  exact slice_all w

/-- A word is the four fields of format 2R (R73). -/
theorem word2R_fields (w : Word) : word2R (opcodeField w) (regField9 w) (regField6 w) (n6Field w) = w := by
  simp only [word2R, opcodeField, regField9, regField6, n6Field, BitVec.ofFin_toFin]
  rw [BitVec.extractLsb'_append_extractLsb'_eq_extractLsb' (rfl : 12 = 9 + 3),
    BitVec.extractLsb'_append_extractLsb'_eq_extractLsb' (rfl : 9 = 6 + 3),
    BitVec.extractLsb'_append_extractLsb'_eq_extractLsb' (rfl : 6 = 0 + 6)]
  exact slice_all w

theorem ofBool_extensionField (w : Word) : BitVec.ofBool (extensionField w) = w.extractLsb' 8 1 := by
  apply BitVec.eq_of_getLsbD_eq
  intro i hi
  obtain rfl : i = 0 := by omega
  simp [extensionField]

/-- A word is the four fields of format 1R (R74). -/
theorem word1R_fields (w : Word) : word1R (opcodeField w) (regField9 w) (extensionField w) (n8Field w) = w := by
  simp only [word1R, opcodeField, regField9, n8Field, BitVec.ofFin_toFin, ofBool_extensionField]
  rw [BitVec.extractLsb'_append_extractLsb'_eq_extractLsb' (rfl : 12 = 9 + 3),
    BitVec.extractLsb'_append_extractLsb'_eq_extractLsb' (rfl : 9 = 8 + 1),
    BitVec.extractLsb'_append_extractLsb'_eq_extractLsb' (rfl : 8 = 0 + 8)]
  exact slice_all w

theorem and_F007 (w : Word) : w &&& 0xF007#16 = word3R (opcodeField w) 0 0 0 (functionField w) := by
  conv_lhs => rw [← word3R_fields w]
  exact row3R _ _ _ _ _

theorem and_F000 (w : Word) : w &&& 0xF000#16 = word2R (opcodeField w) 0 0 0 := by
  conv_lhs => rw [← word2R_fields w]
  exact row2R _ _ _ _

theorem and_F100 (w : Word) : w &&& 0xF100#16 = word1R (opcodeField w) 0 (extensionField w) 0 := by
  conv_lhs => rw [← word1R_fields w]
  exact row1R _ _ _ _

theorem and_F007_eq_iff (v w : Word) :
    w &&& 0xF007#16 = v &&& 0xF007#16 ↔ opcodeField v = opcodeField w ∧ functionField v = functionField w := by
  rw [and_F007, and_F007]
  refine ⟨fun h => ⟨?_, ?_⟩, fun ⟨hc, hf⟩ => by rw [hc, hf]⟩
  · simpa using (congrArg opcodeField h).symm
  · simpa using (congrArg functionField h).symm

theorem and_F000_eq_iff (v w : Word) : w &&& 0xF000#16 = v &&& 0xF000#16 ↔ opcodeField v = opcodeField w := by
  rw [and_F000, and_F000]
  refine ⟨fun h => ?_, fun hc => by rw [hc]⟩
  simpa using (congrArg opcodeField h).symm

theorem and_F100_eq_iff (v w : Word) :
    w &&& 0xF100#16 = v &&& 0xF100#16 ↔ opcodeField v = opcodeField w ∧ extensionField v = extensionField w := by
  rw [and_F100, and_F100]
  refine ⟨fun h => ⟨?_, ?_⟩, fun ⟨hc, he⟩ => by rw [hc, he]⟩
  · simpa using (congrArg opcodeField h).symm
  · simpa using (congrArg extensionField h).symm

/-! Two words that agree in the fields that select (R78). -/

/-- R78: the two words have the same c, the same f where c is 0 or 1, and the same e where c is 8, 9 or 0xA. -/
structure SameSelectors (w w' : Word) : Prop where
  opcode : opcodeField w = opcodeField w'
  function : (opcodeField w).toNat < 2 → functionField w = functionField w'
  extension : 8 ≤ (opcodeField w).toNat → (opcodeField w).toNat ≤ 10 → extensionField w = extensionField w'

theorem sameSelectors_iff_of_function {v : Word} (hv : (opcodeField v).toNat < 2) (w : Word) :
    SameSelectors v w ↔ w &&& 0xF007#16 = v &&& 0xF007#16 := by
  rw [and_F007_eq_iff]
  exact ⟨fun h => ⟨h.opcode, h.function hv⟩, fun ⟨hc, hf⟩ => ⟨hc, fun _ => hf, fun h8 => by omega⟩⟩

theorem sameSelectors_iff_of_opcode {v : Word} (hv : 2 ≤ (opcodeField v).toNat ∧ (opcodeField v).toNat < 8)
    (w : Word) : SameSelectors v w ↔ w &&& 0xF000#16 = v &&& 0xF000#16 := by
  rw [and_F000_eq_iff]
  exact ⟨fun h => h.opcode, fun hc => ⟨hc, fun h2 => by omega, fun h8 => by omega⟩⟩

theorem sameSelectors_iff_of_extension {v : Word} (hv : 8 ≤ (opcodeField v).toNat ∧ (opcodeField v).toNat ≤ 10)
    (w : Word) : SameSelectors v w ↔ w &&& 0xF100#16 = v &&& 0xF100#16 := by
  rw [and_F100_eq_iff]
  exact ⟨fun h => ⟨h.opcode, h.extension hv.1 hv.2⟩, fun ⟨hc, he⟩ => ⟨hc, fun h2 => by omega, fun _ _ => he⟩⟩

/-- A word lies in a row of the opcode table exactly when it agrees with the row's match in the fields that select. -/
theorem sameSelectors_matchBits_iff (m : Mnemonic) (w : Word) :
    SameSelectors m.matchBits w ↔ w &&& m.mask = m.matchBits := by
  cases m with
  | and | or | xor | not | add | sub | sha | shl | cmplt | cmple | cmpeq | cmpltu | cmpleu =>
    exact sameSelectors_iff_of_function (by decide) w
  | addi | ld | st | ldb | stb | jalr => exact sameSelectors_iff_of_opcode (by decide) w
  | bz | bnz | movi | movhi | inp | out => exact sameSelectors_iff_of_extension (by decide) w

/-- The row of the opcode table a decoding belongs to, if any. -/
def rowOf : Decoded Instr → Option Mnemonic
  | .ok i => some i.mnemonic
  | .rejected _ => none

theorem rowOf_eq_some_iff (x : Decoded Instr) (m : Mnemonic) :
    rowOf x = some m ↔ ∃ i, x = .ok i ∧ i.mnemonic = m := by
  cases x <;> simp [rowOf]

theorem rowOf_decodeLogic_congr {w w' : Word} (h : functionField w = functionField w') :
    rowOf (decodeLogic w) = rowOf (decodeLogic w') := by
  unfold decodeLogic
  rw [← h]
  split <;> rfl

theorem rowOf_decodeCompare_congr {w w' : Word} (h : functionField w = functionField w') :
    rowOf (decodeCompare w) = rowOf (decodeCompare w') := by
  unfold decodeCompare
  rw [← h]
  split <;> rfl

/-- No other bit takes part in selecting the instruction (R78). -/
theorem rowOf_decodeWord_congr {w w' : Word} (h : SameSelectors w w') :
    rowOf (decodeWord w) = rowOf (decodeWord w') := by
  obtain ⟨hc, hf, he⟩ := h
  unfold decodeWord
  rw [← hc]
  split
  case h_1 h0 => exact rowOf_decodeLogic_congr (hf (by omega))
  case h_2 h1 => exact rowOf_decodeCompare_congr (hf (by omega))
  case h_9 h8 | h_10 h9 | h_11 h10 =>
    rw [← he (by omega) (by omega)]
    split <;> rfl
  all_goals rfl

/-- The match of a row is itself a word of the row. -/
theorem rowOf_decodeWord_matchBits (m : Mnemonic) : rowOf (decodeWord m.matchBits) = some m := by
  cases m <;> rfl

/-- R84 (a), by the fields. -/
abbrev UnassignedFunction (c : BitVec 4) (f : BitVec 3) : Prop := c = 1#4 ∧ f ∈ [2#3, 6#3, 7#3]

/-- R84 (a), (b), (c), by the fields. -/
abbrev Unassigned (c : BitVec 4) (f : BitVec 3) : Prop := UnassignedFunction c f ∨ c = 11#4 ∨ 12#4 ≤ c

/-- What decoding says of a word: an instruction's row agrees with the word in the fields that select, and a word that
spells none has one of the unassigned values of c and f (R84). -/
def DecodedFrom (w : Word) : Decoded Instr → Prop
  | .ok i => SameSelectors i.mnemonic.matchBits w
  | .rejected r =>
    (r = .unassignedFunction w ∧ UnassignedFunction (opcodeField w) (functionField w)) ∨
    (r = .unassignedOpcodeB w ∧ opcodeField w = 11#4) ∨ (r = .futureExtension w ∧ 12#4 ≤ opcodeField w)

section Agree
variable {v w : Word} (hc : (opcodeField w).toNat = (opcodeField v).toNat)
include hc

theorem SameSelectors.of_function (hlt : (opcodeField w).toNat < 2)
    (hf : (functionField w).toNat = (functionField v).toNat) : SameSelectors v w :=
  ⟨BitVec.eq_of_toNat_eq hc.symm, fun _ => BitVec.eq_of_toNat_eq hf.symm, fun h8 => by omega⟩

theorem SameSelectors.of_opcode (hlt : 2 ≤ (opcodeField w).toNat ∧ (opcodeField w).toNat < 8) : SameSelectors v w :=
  ⟨BitVec.eq_of_toNat_eq hc.symm, fun h2 => by omega, fun h8 => by omega⟩

theorem SameSelectors.of_extension (hlt : 8 ≤ (opcodeField w).toNat) (he : extensionField w = extensionField v) :
    SameSelectors v w :=
  ⟨BitVec.eq_of_toNat_eq hc.symm, fun h2 => by omega, fun _ _ => he.symm⟩

end Agree

theorem decodeLogic_spec {w : Word} (hc : (opcodeField w).toNat = 0) : DecodedFrom w (decodeLogic w) := by
  have hlt := (functionField w).isLt
  unfold decodeLogic
  split
  all_goals simp only [DecodedFrom, Instr.mnemonic]
  case h_8 =>
    have hf : (functionField w).toNat = 7 := by grind
    exact SameSelectors.of_function hc (by omega) hf
  all_goals exact SameSelectors.of_function hc (by omega) ‹_›

theorem decodeCompare_spec {w : Word} (hc : (opcodeField w).toNat = 1) : DecodedFrom w (decodeCompare w) := by
  have hlt := (functionField w).isLt
  unfold decodeCompare
  split
  case h_6 =>
    refine .inl ⟨rfl, BitVec.eq_of_toNat_eq hc, ?_⟩
    simp only [List.mem_cons, ← BitVec.toNat_inj, BitVec.toNat_ofNat, List.not_mem_nil]
    grind
  all_goals
    simp only [DecodedFrom, Instr.mnemonic]
    exact SameSelectors.of_function hc (by omega) ‹_›

/-- Everything decoding can answer. -/
theorem decodeWord_spec (w : Word) : DecodedFrom w (decodeWord w) := by
  unfold decodeWord
  split
  case h_1 hc => exact decodeLogic_spec hc
  case h_2 hc => exact decodeCompare_spec hc
  case h_9 hc | h_10 hc | h_11 hc =>
    split
    all_goals simp only [DecodedFrom, Instr.mnemonic]
    · next he => exact SameSelectors.of_extension hc (by omega) he
    · next he => exact SameSelectors.of_extension hc (by omega) (eq_false_of_ne_true he)
  case h_12 hc => exact .inr (.inl ⟨rfl, BitVec.eq_of_toNat_eq hc⟩)
  case h_13 => exact .inr (.inr ⟨rfl, BitVec.le_def.mpr (show 12 ≤ (opcodeField w).toNat by grind)⟩)
  all_goals
    simp only [DecodedFrom, Instr.mnemonic]
    exact SameSelectors.of_opcode ‹_› (by omega)

theorem decodedFrom_of_eq {w : Word} {x : Decoded Instr} (h : decodeWord w = x) : DecodedFrom w x :=
  h ▸ decodeWord_spec w

/-- A word spells an instruction of a row exactly when it agrees with the row's match in the fields that select. -/
theorem rowOf_decodeWord_eq_some_iff (w : Word) (m : Mnemonic) :
    rowOf (decodeWord w) = some m ↔ SameSelectors m.matchBits w := by
  constructor
  · intro h
    obtain ⟨i, hi, rfl⟩ := (rowOf_eq_some_iff _ _).mp h
    exact decodedFrom_of_eq hi
  · intro h
    rw [← rowOf_decodeWord_congr h, rowOf_decodeWord_matchBits]

/-- Settles O42: the row of a decoding is the one whose match the word agrees with, and a decoding has one row. -/
theorem decodeFollowsOpcodeTable : Obligations.DecodeFollowsOpcodeTable := by
  have hrow : ∀ (w : Word) (m : Mnemonic), rowOf (decodeWord w) = some m ↔ w &&& m.mask = m.matchBits := fun w m =>
    (rowOf_decodeWord_eq_some_iff w m).trans (sameSelectors_matchBits_iff m w)
  refine ⟨fun w m => (rowOf_eq_some_iff _ m).symm.trans (hrow w m), fun w m m' h h' => ?_⟩
  exact Option.some.inj (((hrow w m).mpr h).symm.trans ((hrow w m').mpr h'))

/-- Settles O43: words that agree in the fields that select decode into one row. -/
theorem onlyDecidingFieldsSelect : Obligations.OnlyDecidingFieldsSelect := by
  intro w w' hc hf he i hi
  have hrow := rowOf_decodeWord_congr ⟨hc, hf, he⟩
  rw [hi] at hrow
  exact (rowOf_eq_some_iff _ _).mp hrow.symm

/-! The words that spell no instruction (R84). -/

theorem decodeWord_of_unassignedFunction {w : Word} (h : UnassignedFunction (opcodeField w) (functionField w)) :
    decodeWord w = .rejected (.unassignedFunction w) := by
  obtain ⟨hc, hf⟩ := h
  simp only [List.mem_cons, List.not_mem_nil, or_false] at hf
  rcases hf with hf | hf | hf <;> simp [decodeWord, decodeCompare, hc, hf]

theorem decodeWord_of_opcodeB {w : Word} (hc : opcodeField w = 11#4) :
    decodeWord w = .rejected (.unassignedOpcodeB w) := by
  simp [decodeWord, hc]

theorem decodeWord_of_futureExtension {w : Word} (hc : 12#4 ≤ opcodeField w) :
    decodeWord w = .rejected (.futureExtension w) := by
  have h12 : 12 ≤ (opcodeField w).toNat := BitVec.le_def.mp hc
  unfold decodeWord
  split
  case h_13 => rfl
  all_goals omega

theorem decodeWord_eq_unassignedFunction_iff (w : Word) : decodeWord w = .rejected (.unassignedFunction w) ↔
    UnassignedFunction (opcodeField w) (functionField w) := by
  refine ⟨fun h => ?_, decodeWord_of_unassignedFunction⟩
  simpa [DecodedFrom] using decodedFrom_of_eq h

theorem decodeWord_eq_opcodeB_iff (w : Word) :
    decodeWord w = .rejected (.unassignedOpcodeB w) ↔ opcodeField w = 11#4 := by
  refine ⟨fun h => ?_, decodeWord_of_opcodeB⟩
  simpa [DecodedFrom] using decodedFrom_of_eq h

theorem decodeWord_eq_futureExtension_iff (w : Word) :
    decodeWord w = .rejected (.futureExtension w) ↔ 12#4 ≤ opcodeField w := by
  refine ⟨fun h => ?_, decodeWord_of_futureExtension⟩
  simpa [DecodedFrom] using decodedFrom_of_eq h

theorem reject_of_decodeWord {w : Word} {r : Reject} (h : decodeWord w = .rejected r) :
    r = .unassignedFunction w ∨ r = .unassignedOpcodeB w ∨ r = .futureExtension w :=
  (decodedFrom_of_eq h).imp And.left (Or.imp And.left And.left)

theorem rowOf_decodeWord_isSome_iff (w : Word) : (rowOf (decodeWord w)).isSome = true ↔
    ¬Unassigned (opcodeField w) (functionField w) := by
  rw [Unassigned, ← decodeWord_eq_unassignedFunction_iff, ← decodeWord_eq_opcodeB_iff, ← decodeWord_eq_futureExtension_iff]
  cases hd : decodeWord w with
  | ok i => simp [rowOf]
  | rejected r => simpa [rowOf, imp_iff_not_or, not_or] using reject_of_decodeWord hd

/-! Counting words by c and f. -/

theorem countP_range_mul (p : Nat → Bool) (a b : Nat) :
    (List.range (a * b)).countP p = ((List.range a).map fun i => (List.range b).countP fun j => p (i * b + j)).sum := by
  induction a with
  | zero => simp
  | succ a ih =>
    rw [Nat.succ_mul, List.range_add, List.countP_append, ih, List.range_succ]
    simp [List.countP_map, Function.comp_def]

theorem opcodeField_ofNat (c : Nat) {k : Nat} (h : k < 4096) :
    opcodeField (BitVec.ofNat 16 (c * 4096 + k)) = BitVec.ofNat 4 c := by
  apply BitVec.eq_of_toNat_eq
  simp only [opcodeField, BitVec.extractLsb'_toNat, BitVec.toNat_ofNat, Nat.shiftRight_eq_div_pow]
  omega

theorem functionField_ofNat (c x f : Nat) :
    functionField (BitVec.ofNat 16 (c * 4096 + (x * 8 + f))) = BitVec.ofNat 3 f := by
  apply BitVec.eq_of_toNat_eq
  simp only [functionField, BitVec.extractLsb'_toNat, BitVec.toNat_ofNat, Nat.shiftRight_zero]
  omega

/-- Bits 11 to 3 are free: each pair of values of c and f is that of 512 words. -/
theorem countP_words (p : Word → Bool) (P : BitVec 4 → BitVec 3 → Prop) [∀ c f, Decidable (P c f)]
    (h : ∀ w, p w = true ↔ P (opcodeField w) (functionField w)) :
    (List.range 65536).countP (fun n => p (BitVec.ofNat 16 n)) =
      ((List.range 16).map fun c => 512 * (List.range 8).countP fun f => P (BitVec.ofNat 4 c) (BitVec.ofNat 3 f)).sum := by
  have hopcode := countP_range_mul (fun n => p (BitVec.ofNat 16 n)) 16 4096
  refine hopcode.trans (congrArg List.sum (List.map_congr_left fun c _ => ?_))
  have hfunction := countP_range_mul (fun k => p (BitVec.ofNat 16 (c * 4096 + k))) 512 8
  refine hfunction.trans ?_
  have hrow : ∀ x ∈ List.range 512, ((List.range 8).countP fun f => p (BitVec.ofNat 16 (c * 4096 + (x * 8 + f)))) =
      (List.range 8).countP fun f => P (BitVec.ofNat 4 c) (BitVec.ofNat 3 f) := by
    intro x hx
    refine List.countP_congr fun f hf => ?_
    rw [List.mem_range] at hx hf
    rw [h, opcodeField_ofNat c (by omega), functionField_ofNat, decide_eq_true_iff]
  rw [List.map_congr_left hrow, List.map_const', List.sum_replicate, List.length_range, smul_eq_mul]

theorem twelve_le_opcodeField_iff (w : Word) : 12#4 ≤ opcodeField w ↔ w.extractLsb' 14 2 = 0b11#2 := by
  rw [BitVec.le_def, ← BitVec.toNat_inj]
  simp only [opcodeField, BitVec.extractLsb'_toNat, BitVec.toNat_ofNat, Nat.shiftRight_eq_div_pow]
  omega

theorem unassignedFunction_iff_and_F007 (w : Word) : UnassignedFunction (opcodeField w) (functionField w) ↔
    w &&& 0xF007#16 = 0x1002#16 ∨ w &&& 0xF007#16 = 0x1006#16 ∨ w &&& 0xF007#16 = 0x1007#16 := by
  have h2 : w &&& 0xF007#16 = 0x1002#16 ↔ 1#4 = opcodeField w ∧ 2#3 = functionField w := and_F007_eq_iff 0x1002#16 w
  have h6 : w &&& 0xF007#16 = 0x1006#16 ↔ 1#4 = opcodeField w ∧ 6#3 = functionField w := and_F007_eq_iff 0x1006#16 w
  have h7 : w &&& 0xF007#16 = 0x1007#16 ↔ 1#4 = opcodeField w ∧ 7#3 = functionField w := and_F007_eq_iff 0x1007#16 w
  simp [UnassignedFunction, h2, h6, h7, ← and_or_left, eq_comm]

/-- Settles O44: the first clauses put the unassigned values of c and f as bits of the word, and each count is that of the
values of c and f, with 512 words each. -/
theorem unassignedWordsAreRejected : Obligations.UnassignedWordsAreRejected := by
  refine ⟨?_, decodeWord_eq_opcodeB_iff, ?_, fun w r => reject_of_decodeWord, ?_, ?_, ?_, ?_⟩
  · exact fun w => (decodeWord_eq_unassignedFunction_iff w).trans (unassignedFunction_iff_and_F007 w)
  · exact fun w => (decodeWord_eq_futureExtension_iff w).trans (twelve_le_opcodeField_iff w)
  · exact (countP_words (fun w => decodeWord w == .rejected (.unassignedFunction w)) UnassignedFunction
      fun w => beq_iff_eq.trans (decodeWord_eq_unassignedFunction_iff w)).trans (by decide)
  · exact (countP_words (fun w => decodeWord w == .rejected (.unassignedOpcodeB w)) (fun c _ => c = 11#4)
      fun w => beq_iff_eq.trans (decodeWord_eq_opcodeB_iff w)).trans (by decide)
  · exact (countP_words (fun w => decodeWord w == .rejected (.futureExtension w)) (fun c _ => 12#4 ≤ c)
      fun w => beq_iff_eq.trans (decodeWord_eq_futureExtension_iff w)).trans (by decide)
  · refine (List.countP_congr fun n _ => ?_).trans ((countP_words (fun w => (rowOf (decodeWord w)).isSome)
      (fun c f => ¬Unassigned c f) rowOf_decodeWord_isSome_iff).trans (by decide))
    cases decodeWord (BitVec.ofNat 16 n) <;> simp [rowOf]

end Sys2Proof.Machine

/-! The words of the encoder decode to what they encode (30_encoding.md R72 to R82). -/

namespace Sys2Proof.Machine

/-- The word of an instruction spells that instruction: its c, and f or e where it has one, select the row, and each operand
is read from the field it was put in. -/
@[simp] theorem decodeWord_encode (i : Instr) : decodeWord (encode i) = .ok i := by
  cases i with
  | and | or | xor | not | add | sub | sha | shl => simp [encode, decodeWord, decodeLogic]
  | cmplt | cmple | cmpeq | cmpltu | cmpleu => simp [encode, decodeWord, decodeCompare]
  | _ => simp [encode, decodeWord]

end Sys2Proof.Machine

/-! AND, OR, XOR, and the sums modulo 2^16 of ADD, SUB and ADDI (40_arithmetic_logic.md R101 to R106, R110). -/

namespace Sys2Proof.Machine

/-- Settles O1: each answers `finishReg` with the bitwise result. -/
theorem andOrXorWriteBitwiseResult : Obligations.AndOrXorWriteBitwiseResult := fun d a b _ =>
  ⟨⟨decodeWord_encode (.and d a b), _, _, rfl, finishReg_spec _ _ _, fun _ => BitVec.getLsbD_and⟩,
    ⟨decodeWord_encode (.or d a b), _, _, rfl, finishReg_spec _ _ _, fun _ => BitVec.getLsbD_or⟩,
    ⟨decodeWord_encode (.xor d a b), _, _, rfl, finishReg_spec _ _ _, fun _ => BitVec.getLsbD_xor⟩⟩

theorem ofInt_sub {w : Nat} (x y : Int) : BitVec.ofInt w (x - y) = BitVec.ofInt w x - BitVec.ofInt w y := by
  rw [Int.sub_eq_add_neg, BitVec.ofInt_add, BitVec.ofInt_neg, BitVec.sub_eq_add_neg]

/-- The low bits of the unsigned reading are the word itself, as `BitVec.ofInt_toInt` says of the signed one. -/
theorem ofInt_toNat {w : Nat} (x : BitVec w) : BitVec.ofInt w (x.toNat : Int) = x := by
  rw [BitVec.ofInt_natCast, BitVec.ofNat_toNat, BitVec.setWidth_eq]

/-- Settles O3: taking the low 16 bits commutes with sum and difference, and undoes either reading of an operand. -/
theorem addSubAreModuloTwoToSixteen : Obligations.AddSubAreModuloTwoToSixteen := by
  intro d a b s
  refine ⟨⟨decodeWord_encode (.add d a b), _, _, rfl, finishReg_spec _ _ _, ?_, ?_⟩,
    ⟨decodeWord_encode (.sub d a b), _, _, rfl, finishReg_spec _ _ _, ?_, ?_, ?_⟩⟩
  · simp only [BitVec.ofNat_add, BitVec.ofNat_toNat, BitVec.setWidth_eq]
  · rw [BitVec.ofInt_add, BitVec.ofInt_toInt, BitVec.ofInt_toInt]
  · rw [ofInt_sub, ofInt_toNat, ofInt_toNat]
  · rw [ofInt_sub, BitVec.ofInt_toInt, BitVec.ofInt_toInt]
  · rw [BitVec.sub_eq_add_neg, BitVec.neg_eq_not_add, BitVec.add_assoc]

/-- Sign extension takes the low 16 bits of the signed reading, so adding N6 is adding its signed value (R110). -/
theorem add_sext6 (x : Word) (n : BitVec 6) : x + sext6 n = BitVec.ofInt 16 ((x.toNat : Int) + n.toInt) := by
  rw [BitVec.ofInt_add, ofInt_toNat]
  rfl

/-- Settles O7: ADDI answers `finishReg` with the sum of Ra and the sign extension of N6. -/
theorem addiAddsSignedImmediate : Obligations.AddiAddsSignedImmediate := fun d a n s =>
  ⟨decodeWord_encode (.addi d a n), _, rfl, add_sext6 (s.reg a) n ▸ finishReg_spec _ _ _⟩

end Sys2Proof.Machine

/-! The compares (41_compare.md R120 to R125). -/

namespace Sys2Proof.Machine

/-- The word of a relation decided is 1 where the relation holds and 0 where it does not (R120). -/
@[simp] theorem boolWord_decide (p : Prop) [Decidable p] :
    boolWord (decide p) = if p then 0x0001#16 else 0x0000#16 := by
  by_cases h : p <;> simp [boolWord, h]

/-- What the shared ending of the five compares does, by the relation `p` it decides. -/
theorem finishReg_boolWord_spec (s : State) (d : RegNum) (p : Prop) [Decidable p] :
    WritesOnlyReg s (s.finishReg d (boolWord (decide p))) d (if p then 0x0001#16 else 0x0000#16) :=
  boolWord_decide p ▸ finishReg_spec s d _

/-- Settles O8: each answers `finishReg` with the word of its relation, which it decides on the mathematical values. -/
theorem comparesWriteOneOrZero : Obligations.ComparesWriteOneOrZero := fun d a b s =>
  ⟨⟨decodeWord_encode (.cmplt d a b), _, rfl, finishReg_boolWord_spec s d ((s.reg a).toInt < (s.reg b).toInt)⟩,
    ⟨decodeWord_encode (.cmple d a b), _, rfl, finishReg_boolWord_spec s d ((s.reg a).toInt ≤ (s.reg b).toInt)⟩,
    ⟨decodeWord_encode (.cmpeq d a b), _, rfl, finishReg_boolWord_spec s d (s.reg a = s.reg b)⟩,
    ⟨decodeWord_encode (.cmpltu d a b), _, rfl, finishReg_boolWord_spec s d ((s.reg a).toNat < (s.reg b).toNat)⟩,
    ⟨decodeWord_encode (.cmpleu d a b), _, rfl, finishReg_boolWord_spec s d ((s.reg a).toNat ≤ (s.reg b).toNat)⟩⟩

end Sys2Proof.Machine

/-! MOVI (42_move_immediate.md R131). -/

namespace Sys2Proof.Machine

@[simp] theorem toInt_sext8 (n : BitVec 8) : (sext8 n).toInt = n.toInt :=
  BitVec.toInt_signExtend_of_le (by decide)

/-- Sign extension bit by bit: bit 7 of N8 copied into bits 15 to 8 (R131). -/
theorem getLsbD_sext8 (n : BitVec 8) {i : Nat} (h : i < 16) :
    (sext8 n).getLsbD i = if i < 8 then n.getLsbD i else n.getLsbD 7 := by
  rw [sext8, BitVec.getLsbD_signExtend, BitVec.msb_eq_getLsbD_last, decide_eq_true h, Bool.true_and]

/-- Settles O10: MOVI answers `finishReg` with the sign extension of N8. -/
theorem moviWritesSignedImmediate : Obligations.MoviWritesSignedImmediate := fun d n s =>
  ⟨decodeWord_encode (.movi d n), _, _, rfl, finishReg_spec s d (sext8 n), toInt_sext8 n, fun _ => getLsbD_sext8 n⟩

end Sys2Proof.Machine

/-! The loads and stores (43_load_store.md R141 to R144). -/

namespace Sys2Proof.Machine

/-- Settles O14: LD answers `finishReg` with the word at the word address. -/
theorem ldLoadsAlignedWord : Obligations.LdLoadsAlignedWord := fun d a n s =>
  ⟨decodeWord_encode (.ld d a n), _, rfl, finishReg_spec s d (s.word (s.wordAddr a n))⟩

/-- A loaded byte is extended as N8 is as a signed operand (R76, R143). -/
theorem sextByte_eq_sext8 : sextByte = sext8 := rfl

/-- Settles O15: LDB answers `finishReg` with the sign extension of the byte at the computed address. -/
theorem ldbLoadsSignedByte : Obligations.LdbLoadsSignedByte := fun d a n s =>
  ⟨decodeWord_encode (.ldb d a n), _, _, rfl, sextByte_eq_sext8 ▸ finishReg_spec s d (sextByte (s.byte (s.ea a n))),
    toInt_sext8 _, fun _ => getLsbD_sext8 _⟩

/-- Settles O16: ST answers `setWord` at the word address, then `advance`, which moves the pc alone. -/
theorem stStoresAlignedWord : Obligations.StStoresAlignedWord := by
  intro a b n s wa
  exact ⟨decodeWord_encode (.st a b n), _, rfl, s.byte_setWord_self wa (s.reg b), s.byte_setWord_succ wa (s.reg b),
    setWord_sameMemoryBut s wa (s.reg b), fun _ => rfl, fun _ => rfl, rfl, rfl⟩

@[simp] theorem State.byte_setByte_self (s : State) (a : Word) (v : Byte) : (s.setByte a v).byte a = v := by
  simp [State.byte_setByte]

/-- Settles O17: STB answers `setByte` at the computed address, then `advance`, which moves the pc alone. -/
theorem stbStoresLowByte : Obligations.StbStoresLowByte := by
  intro a b n s ea
  exact ⟨decodeWord_encode (.stb a b n), _, rfl, s.byte_setByte_self ea (lowByte (s.reg b)),
    setByte_sameMemoryBut s ea (lowByte (s.reg b)), fun _ => rfl, fun _ => rfl, rfl, rfl⟩

end Sys2Proof.Machine

/-! The branches (45_control_transfer.md R161, R162). -/

namespace Sys2Proof.Machine

/-- Settles O24: either branch ends in `setPc`, at `branchTarget` or `nextPc` by the test of Ra, which BNZ reads in the
opposite sense. -/
theorem bzBnzBranch : Obligations.BzBnzBranch := by
  intro a n s next target
  refine ⟨⟨decodeWord_encode (.bz a n), _, exec_bz a n s, setPc_spec s _⟩,
    ⟨decodeWord_encode (.bnz a n), _, exec_bnz a n s, ?_⟩⟩
  rw [ite_not]
  exact setPc_spec s _

end Sys2Proof.Machine

/-! The encoder and the decoder undo each other (30_encoding.md sections 2 to 5). -/

namespace Sys2Proof.Machine

/-- Settles O40: the word of the two bytes of the encoding is the encoding, which decodes to the instruction. -/
theorem decodeOfEncodeIsIdentity : Obligations.DecodeOfEncodeIsIdentity := by
  intro i rest
  refine ⟨decodeWord_encode i, ?_⟩
  simp [encodeBytes, decode]

end Sys2Proof.Machine

/-! The endings the instructions share, and what every step keeps (10_state.md, 44_input_output.md R152, R154). -/

namespace Sys2Proof.Machine

/-- The seven ways an instruction ends, with the kind of instruction that ends so. -/
inductive EndsIn (i : Instr) (s : State) : State → Prop where
  | writeReg (d : RegNum) (v : Word) (dest : i.dest = some d) : EndsIn i s (s.finishReg d v)
  | receive (d : RegNum) (p : Port) (dest : i.dest = some d) : EndsIn i s (s.receive d p (s.inputNow p))
  | send (p : Port) (v : Word) (out : i.mnemonic = .out) : EndsIn i s (s.setOut p v).advance
  | storeWord (a v : Word) (st : i.mnemonic = .st) : EndsIn i s (s.setWord a v).advance
  | storeByte (a : Word) (v : Byte) (stb : i.mnemonic = .stb) : EndsIn i s (s.setByte a v).advance
  | branch (n : BitVec 8) (target : Word) (choice : target = s.nextPc ∨ target = s.branchTarget n) :
      EndsIn i s (s.setPc target)
  | jump (d : RegNum) (v : Word) (dest : i.dest = some d) : EndsIn i s ((s.setReg d s.nextPc).setPc (clearBit0 v))

/-- Every instruction completes, in one of the seven ways. -/
theorem exec_endsIn (i : Instr) (s : State) : ∃ t, exec i s = .next t ∧ EndsIn i s t := by
  cases i with
  | bz a n => exact ⟨_, exec_bz a n s, .branch n _ (ite_eq_or_eq _ _ _).symm⟩
  | bnz a n => exact ⟨_, exec_bnz a n s, .branch n _ (ite_eq_or_eq _ _ _)⟩
  | jalr d a => exact ⟨_, rfl, .jump d (s.reg a) rfl⟩
  | st a b n => exact ⟨_, rfl, .storeWord _ _ rfl⟩
  | stb a b n => exact ⟨_, rfl, .storeByte _ _ rfl⟩
  | inp d n => exact ⟨_, rfl, .receive d (portOf n) rfl⟩
  | out n a => exact ⟨_, rfl, .send (portOf n) (s.reg a) rfl⟩
  | _ => exact ⟨_, rfl, .writeReg _ _ rfl⟩

theorem endsIn_of_exec {i : Instr} {s t : State} (h : exec i s = .next t) : EndsIn i s t := by
  obtain ⟨u, hu, hend⟩ := exec_endsIn i s
  cases hu.symm.trans h
  exact hend

/-- Every next state of a step is one of the seven, from an even pc. -/
theorem endsIn_of_step {s t : State} (h : step s = .next t) : isEven s.pc = true ∧ ∃ i, EndsIn i s t := by
  obtain ⟨heven, i, -, hexec⟩ := step_next h
  exact ⟨heven, i, endsIn_of_exec hexec⟩

/-! The invariant (10_state.md R27). -/

theorem isEven_clearBit0 (v : Word) : isEven (clearBit0 v) = true := by
  rw [isEven_eq_true_iff, toNat_clearBit0]
  omega

theorem isEven_add {x y : Word} (hx : isEven x = true) (hy : isEven y = true) : isEven (x + y) = true := by
  rw [isEven_eq_true_iff] at *
  rw [BitVec.toNat_add]
  omega

theorem State.isEven_nextPc {s : State} (h : isEven s.pc = true) : isEven s.nextPc = true :=
  isEven_add h (by decide)

theorem isEven_shiftLeft_one (x : Word) : isEven (x <<< 1) = true := by
  simp [isEven]

theorem State.isEven_branchTarget {s : State} (n : BitVec 8) (h : isEven s.pc = true) :
    isEven (s.branchTarget n) = true :=
  isEven_add (State.isEven_nextPc h) (isEven_shiftLeft_one (sext8 n))

/-- Settles O34: the pc of each ending is `nextPc`, a branch target or a value with bit 0 cleared, and only the stores touch
memory, which they keep canonical. -/
theorem stepKeepsInvariant : Obligations.StepKeepsInvariant := by
  intro s t ⟨heven, hwf⟩ hstep
  have hnext := State.isEven_nextPc heven
  obtain ⟨-, i, hend⟩ := endsIn_of_step hstep
  cases hend with
  | writeReg | receive | send => exact ⟨hnext, hwf⟩
  | storeWord a v => exact ⟨hnext, State.setWord_wf a v hwf⟩
  | storeByte a v => exact ⟨hnext, State.setByte_wf a v hwf⟩
  | branch n target choice =>
    rcases choice with rfl | rfl
    · exact ⟨hnext, hwf⟩
    · exact ⟨State.isEven_branchTarget n heven, hwf⟩
  | jump d v => exact ⟨isEven_clearBit0 v, hwf⟩

/-- Settles O35: nothing is listed in the memory of `State.reset`, and its pc is 0x0000. -/
theorem resetMeetsInvariant : Obligations.ResetMeetsInvariant := ⟨by decide, reset_mem_wf⟩

/-! The I/O trace (44_input_output.md R152, R154). -/

/-- What a step does to the output ports and the trace: nothing, one IN or one OUT. -/
theorem io_of_step {s t : State} (h : step s = .next t) :
    (t.output = s.output ∧ t.trace = s.trace) ∨
    (∃ p, t.output = s.output ∧ t.trace = s.trace ++ [.input p (s.inputNow p)]) ∨
    (∃ p v, t.output = s.output.set p.val v ∧ t.trace = s.trace ++ [.output p v]) := by
  obtain ⟨-, i, hend⟩ := endsIn_of_step h
  cases hend with
  | receive d p => exact .inr (.inl ⟨p, rfl, rfl⟩)
  | send p v => exact .inr (.inr ⟨p, v, rfl, rfl⟩)
  | _ => exact .inl ⟨rfl, rfl⟩

theorem lastOutput_append (p : Port) (v : Word) (es fs : List IoEvent) :
    lastOutput p v (es ++ fs) = lastOutput p (lastOutput p v es) fs := by
  induction es generalizing v with
  | nil => rfl
  | cons e es ih => cases e <;> exact ih _

/-- Settles O36: an IN leaves every port and is no output event, and an OUT writes one port and appends its event. -/
theorem stepKeepsOutputsAsTraced : Obligations.StepKeepsOutputsAsTraced := by
  intro init s t hs hstep q
  have hq : s.output[q.val] = lastOutput q init[q.val] s.trace := hs q
  rcases io_of_step hstep with ⟨hout, htrace⟩ | ⟨p, hout, htrace⟩ | ⟨p, v, hout, htrace⟩
  · simp only [State.out, hout, htrace, hq]
  · simp only [State.out, hout, htrace, hq, lastOutput_append, lastOutput]
  · simp only [State.out, hout, htrace, lastOutput_append, lastOutput, Vector.getElem_set, hq, Fin.ext_iff]

/-- Appending an event keeps the property where the event is the oracle's answer or no input. -/
theorem inputsFollowOracle_of_append {s t : State} (e : IoEvent) (hs : s.InputsFollowOracle)
    (ht : t.trace = s.trace ++ [e]) (he : ∀ p v, e = .input p v → v = s.inputNow p) : t.InputsFollowOracle := by
  intro before after p v h
  rw [ht] at h
  rcases List.eq_nil_or_concat' after with rfl | ⟨after', e', rfl⟩
  · obtain ⟨rfl, he'⟩ := List.append_inj' h rfl
    exact he p v (List.cons.inj he').1
  · rw [← List.cons_append, ← List.append_assoc] at h
    exact hs before after' p v (List.append_inj' h rfl).1

/-- Settles O37: the event a step appends, if any, is an output or what the oracle answers after the events so far. -/
theorem stepKeepsInputsAsAnswered : Obligations.StepKeepsInputsAsAnswered := by
  intro s t hs hstep
  rcases io_of_step hstep with ⟨-, htrace⟩ | ⟨p, -, htrace⟩ | ⟨p, v, -, htrace⟩
  · intro before after p v h
    exact hs before after p v (htrace ▸ h)
  · refine inputsFollowOracle_of_append _ hs htrace fun q w h => ?_
    cases h
    rfl
  · exact inputsFollowOracle_of_append _ hs htrace fun q w h => by cases h

end Sys2Proof.Machine

/-! What an instruction changes, and what it reads (10_state.md sections 1 and 2, 44_input_output.md R154). -/

namespace Sys2Proof.Machine

/-- Settles O29: each of the seven endings writes the destination, memory or an output port as its kind of instruction
may. -/
theorem onlyNamedStateChanges : Obligations.OnlyNamedStateChanges := by
  intro i s
  obtain ⟨t, hexec, hend⟩ := exec_endsIn i s
  refine ⟨t, hexec, ?_⟩
  cases hend with
  | writeReg d v dest =>
    exact ⟨fun k hk => State.reg_finishReg_ne s v fun e => hk (e ▸ dest), fun h => absurd rfl h, fun h => absurd rfl h⟩
  | receive d p dest =>
    exact ⟨fun k hk => State.reg_receive_ne s p _ fun e => hk (e ▸ dest), fun h => absurd rfl h, fun h => absurd rfl h⟩
  | jump d v dest =>
    exact ⟨fun k hk => State.reg_setReg_ne s _ fun e => hk (e ▸ dest), fun h => absurd rfl h, fun h => absurd rfl h⟩
  | send p v out => exact ⟨fun _ _ => rfl, fun h => absurd rfl h, fun _ => out⟩
  | storeWord a v st => exact ⟨fun _ _ => rfl, fun _ => .inl st, fun h => absurd rfl h⟩
  | storeByte a v stb => exact ⟨fun _ _ => rfl, fun _ => .inr stb, fun h => absurd rfl h⟩
  | branch n target choice => exact ⟨fun _ _ => rfl, fun h => absurd rfl h, fun h => absurd rfl h⟩

/-- Settles O23: IN and OUT record their event, and no other ending touches the trace. -/
theorem traceRecordsEachInAndOut : Obligations.TraceRecordsEachInAndOut := by
  intro i s
  cases i with
  | inp d n =>
    refine ⟨s.receive d (portOf n) (s.inputNow (portOf n)), rfl, ?_⟩
    simp only [State.receive_trace, State.reg_receive_self, portOf]
  | out n a => exact ⟨_, rfl, rfl⟩
  | _ => exact ⟨_, rfl, (List.append_nil _).symm⟩

/-! A register that is no source (10_state.md R23). -/

section Unread
variable {s : State} {k : RegNum} {v : Word}

theorem State.setReg_setReg_comm (s : State) {k d : RegNum} (v w : Word) (h : d ≠ k) :
    (s.setReg k v).setReg d w = (s.setReg d w).setReg k v := by
  have hval : k.val ≠ d.val := fun e => h (Fin.ext e.symm)
  simp only [State.setReg, Vector.set_comm v w hval]

theorem State.setReg_setReg_self (s : State) (k : RegNum) (v w : Word) : (s.setReg k v).setReg k w = s.setReg k w := by
  simp only [State.setReg, Vector.set_set]

/-- Writing the destination overwrites or commutes with a write to Rk before it. -/
theorem setReg_setReg (d : RegNum) (w : Word) :
    (s.setReg k v).setReg d w = if some d = some k then s.setReg d w else (s.setReg d w).setReg k v := by
  split
  · next h => cases h; exact s.setReg_setReg_self k v w
  · next h => exact s.setReg_setReg_comm v w fun e => h (congrArg some e)

/-- An instruction that ends in `finishReg` with a value Rk has no influence on. -/
theorem finishReg_setReg (d : RegNum) {w w' : Word} (hw : w' = w) :
    (s.setReg k v).finishReg d w' = if some d = some k then s.finishReg d w else (s.finishReg d w).setReg k v := by
  subst hw
  exact (congrArg State.advance (setReg_setReg d w')).trans (apply_ite _ _ _ _)

theorem receive_setReg (d : RegNum) (p : Port) (w : Word) :
    (s.setReg k v).receive d p w = if some d = some k then s.receive d p w else (s.receive d p w).setReg k v :=
  finishReg_setReg (s := s.record (.input p w)) d rfl

/-- The link of JALR, with a target Rk has no influence on. -/
theorem setPc_setReg_setReg (d : RegNum) (link : Word) {target target' : Word} (h : target' = target) :
    ((s.setReg k v).setReg d link).setPc target' =
      if some d = some k then (s.setReg d link).setPc target else ((s.setReg d link).setPc target).setReg k v := by
  subst h
  exact (congrArg (State.setPc · target') (setReg_setReg d link)).trans (apply_ite (State.setPc · target') _ _ _)

end Unread

/-- Settles O30: the values an instruction computes from its sources are the same, and the write to its destination
overwrites or commutes with the write to Rk. -/
theorem onlySourcesAreRead : Obligations.OnlySourcesAreRead := by
  intro i s k v hk
  have hread {a : RegNum} (h : k ≠ a) : (s.setReg k v).reg a = s.reg a := State.reg_setReg_ne s v h.symm
  cases i with
  | and d a b | or d a b | xor d a b | add d a b | sub d a b | sha d a b | shl d a b
  | cmplt d a b | cmple d a b | cmpeq d a b | cmpltu d a b | cmpleu d a b =>
    obtain ⟨ha, hb⟩ : k ≠ a ∧ k ≠ b := by simpa [Instr.sources] using hk
    exact ⟨_, rfl, congrArg _ (finishReg_setReg d (by rw [hread ha, hread hb]))⟩
  | not d a | addi d a n =>
    have ha : k ≠ a := by simpa [Instr.sources] using hk
    exact ⟨_, rfl, congrArg _ (finishReg_setReg d (by rw [hread ha]))⟩
  | ld d a n | ldb d a n =>
    have ha : k ≠ a := by simpa [Instr.sources] using hk
    exact ⟨_, rfl, congrArg _ (finishReg_setReg d (by simp only [State.wordAddr, State.ea, hread ha]; rfl))⟩
  | movhi d n =>
    have hd : k ≠ d := by simpa [Instr.sources] using hk
    exact ⟨_, rfl, congrArg _ (finishReg_setReg d (by rw [hread hd]))⟩
  | movi d n => exact ⟨_, rfl, congrArg _ (finishReg_setReg d rfl)⟩
  | inp d n => exact ⟨_, rfl, congrArg _ (receive_setReg d (portOf n) (s.inputNow (portOf n)))⟩
  | jalr d a =>
    have ha : k ≠ a := by simpa [Instr.sources] using hk
    exact ⟨_, rfl, congrArg _ (setPc_setReg_setReg d s.nextPc (by rw [hread ha]))⟩
  | st a b n | stb a b n =>
    obtain ⟨ha, hb⟩ : k ≠ a ∧ k ≠ b := by simpa [Instr.sources] using hk
    refine ⟨_, rfl, ?_⟩
    simp only [exec, execSt, execStb, State.wordAddr, State.ea, hread ha, hread hb]
    rfl
  | bz a n | bnz a n =>
    have ha : k ≠ a := by simpa [Instr.sources] using hk
    refine ⟨_, rfl, ?_⟩
    simp only [exec, execBz, execBnz, hread ha]
    rfl
  | out n a =>
    have ha : k ≠ a := by simpa [Instr.sources] using hk
    refine ⟨_, rfl, ?_⟩
    simp only [exec, execOut, hread ha]
    rfl

end Sys2Proof.Machine

/-! One step, by what the word at the pc decodes to (70_reset_and_hazards.md R195). -/

namespace Sys2Proof.Machine

section Step
variable {s : State} (heven : isEven s.pc = true)
include heven

theorem step_of_decodeWord {i : Instr} (h : decodeWord s.fetchWord = .ok i) : step s = exec i s := by
  simp [step, heven, decode_fetchBytes, h]

theorem step_of_rejected {r : Reject} (h : decodeWord s.fetchWord = .rejected r) :
    step s = .fault (.reservedInstruction s.fetchWord) := by
  simp [step, heven, decode_fetchBytes, h]

end Step

/-- Settles O33, by the first test of `step`. -/
theorem stepFromOddPcIsRefused : Obligations.StepFromOddPcIsRefused := by
  intro s hodd
  simp [step, hodd]

theorem State.fetchWord_withFetchWord (s : State) (w : Word) : (s.withFetchWord 16 w.toNat).fetchWord = w := by
  have hw : BitVec.ofNat 16 (w.toNat % 2 ^ 16) = w := by
    rw [Nat.mod_eq_of_lt w.isLt, BitVec.ofNat_toNat, BitVec.setWidth_eq]
  rw [State.withFetchWord, hw]
  exact s.word_setWord_self s.pc w

/-- Settles O31: the word of the two bytes at the pc is the word fetched, and a word placed there is fetched again. -/
theorem stepRunsDecodedInstruction : Obligations.StepRunsDecodedInstruction := by
  refine ⟨fun s i heven hdecode => step_of_decodeWord heven hdecode, fun s w i heven hdecode => ?_⟩
  have hpc : isEven (s.withFetchWord 16 w.toNat).pc = true := heven
  exact step_of_decodeWord hpc ((s.fetchWord_withFetchWord w).symm ▸ hdecode)

/-- Settles O39: after the store the pc is at the word stored, which is Rb. -/
theorem storeIsSeenByNextFetch : Obligations.StoreIsSeenByNextFetch := by
  intro a b n s j heven hst haddr hj
  have hnext : isEven (s.setWord (s.wordAddr a n) (s.reg b)).advance.pc = true := State.isEven_nextPc heven
  have hfetch : (s.setWord (s.wordAddr a n) (s.reg b)).advance.fetchWord = s.reg b :=
    haddr ▸ State.word_setWord_self s (s.pc + 2#16) (s.reg b)
  exact ⟨_, step_of_decodeWord heven hst, step_of_decodeWord hnext (by rw [hfetch, hj])⟩

theorem branchTarget_minus_one (s : State) : s.branchTarget 0xFF#8 = s.pc := by
  have hback : 2#16 + (sext8 0xFF#8 <<< 1) = 0#16 := by decide
  rw [State.branchTarget, State.nextPc, BitVec.add_assoc, hback, BitVec.add_zero]

/-- Settles O27: the target of the branch is the pc itself. -/
theorem branchToItselfLoops : Obligations.BranchToItselfLoops := by
  intro a s heven hfetch hzero
  have hdecode : decodeWord s.fetchWord = .ok (.bz a 0xFF#8) := hfetch ▸ decodeWord_encode (.bz a 0xFF#8)
  rw [step_of_decodeWord heven hdecode, exec_bz, if_pos hzero, branchTarget_minus_one]
  rfl

/-- The words from 0xB000 on are those of the opcodes 0xB to 0xF. -/
theorem opcodeB_or_above_iff (w : Word) : opcodeField w = 11#4 ∨ 12#4 ≤ opcodeField w ↔ 0xB000#16 ≤ w := by
  rw [BitVec.le_def, BitVec.le_def, ← BitVec.toNat_inj]
  simp only [opcodeField, BitVec.extractLsb'_toNat, BitVec.toNat_ofNat, Nat.shiftRight_eq_div_pow]
  omega

theorem unassigned_iff (w : Word) : Unassigned (opcodeField w) (functionField w) ↔
    w &&& 0xF007#16 ∈ [0x1002#16, 0x1006#16, 0x1007#16] ∨ 0xB000#16 ≤ w := by
  rw [Unassigned, unassignedFunction_iff_and_F007, opcodeB_or_above_iff]
  simp

/-- Settles O32: the words named are those that decode to no instruction, and every instruction completes. -/
theorem stepFaultsExactlyOnUnassignedWord : Obligations.StepFaultsExactlyOnUnassignedWord := by
  intro s heven
  rw [← unassigned_iff]
  have hsome := rowOf_decodeWord_isSome_iff s.fetchWord
  cases hdecode : decodeWord s.fetchWord with
  | ok i =>
    have hassigned : ¬Unassigned (opcodeField s.fetchWord) (functionField s.fetchWord) := hsome.mp (by rw [hdecode]; rfl)
    obtain ⟨t, hexec, -⟩ := exec_endsIn i s
    exact ⟨fun h => absurd h hassigned, fun _ => ⟨t, (step_of_decodeWord heven hdecode).trans hexec⟩⟩
  | rejected r =>
    refine ⟨fun _ => step_of_rejected heven hdecode, fun h => ?_⟩
    have hrow := hsome.mpr h
    simp [hdecode, rowOf] at hrow

/-! The output ports have no influence (44_input_output.md). -/

/-- No instruction reads an output port: each reads and writes the parts the two states agree on alike. -/
theorem exec_sameButOutputs (i : Instr) {s t : State} (h : s.SameButOutputs t) :
    SameOutcomeButOutputs (exec i s) (exec i t) := by
  obtain ⟨pc, regs, mem, output, trace⟩ := s
  obtain ⟨pc', regs', mem', output', trace'⟩ := t
  obtain ⟨rfl, rfl, rfl, rfl⟩ := h
  cases i <;> exact ⟨rfl, rfl, rfl, rfl⟩

theorem fetchWord_eq_of_sameButOutputs {s t : State} (h : s.SameButOutputs t) : s.fetchWord = t.fetchWord := by
  simp only [State.fetchWord, State.word, State.byte, h.pc, h.mem]

/-- Settles O38: the two states fetch one word, and its instruction reads no output port. -/
theorem outputsAreNeverRead : Obligations.OutputsAreNeverRead := by
  intro s t h
  have hfetch := fetchWord_eq_of_sameButOutputs h
  cases heven : isEven s.pc with
  | false =>
    rw [stepFromOddPcIsRefused s heven, stepFromOddPcIsRefused t (h.pc ▸ heven)]
    exact congrArg _ h.pc
  | true =>
    have heven' : isEven t.pc = true := h.pc ▸ heven
    cases hdecode : decodeWord s.fetchWord with
    | ok i =>
      rw [step_of_decodeWord heven hdecode, step_of_decodeWord heven' (hfetch ▸ hdecode)]
      exact exec_sameButOutputs i h
    | rejected r =>
      rw [step_of_rejected heven hdecode, step_of_rejected heven' (hfetch ▸ hdecode)]
      exact congrArg _ hfetch

end Sys2Proof.Machine

/-! NOT and the shifts (40_arithmetic_logic.md R104, R107 to R109). -/

namespace Sys2Proof.Machine

/-- Field b takes no part in spelling NOT (R86). -/
theorem decodeWord_not (d a x : RegNum) : decodeWord (word3R 0#4 a x d 3#3) = .ok (.not d a) := by
  simp [decodeWord, decodeLogic]

/-- Settles O2: NOT answers `finishReg` with the complement, which is the difference from the word of all ones. -/
theorem notInvertsAndIgnoresFieldB : Obligations.NotInvertsAndIgnoresFieldB := by
  intro d a x s
  refine ⟨decodeWord_not d a x, _, _, rfl, finishReg_spec s d (~~~s.reg a),
    (BitVec.allOnes_sub_eq_not (s.reg a)).symm, fun i hi => ?_⟩
  rw [BitVec.getLsbD_not, decide_eq_true hi, Bool.true_and]

theorem shiftAmount_bounds (v : Word) : -16 ≤ shiftAmount v ∧ shiftAmount v ≤ 15 :=
  ⟨BitVec.le_toInt _, Int.le_of_lt_add_one BitVec.toInt_lt⟩

theorem shiftLeft_eq_ofNat_mul (v : Word) (n : Nat) : v <<< n = BitVec.ofNat 16 (v.toNat * 2 ^ n) := by
  rw [← Nat.shiftLeft_eq]
  rfl

theorem shiftLeft_eq_ofInt_mul (v : Word) (n : Nat) : v <<< n = BitVec.ofInt 16 (v.toInt * 2 ^ n) := by
  have hpow : ((2 : Int) ^ n) = ((2 ^ n : Nat) : Int) := by push_cast; rfl
  rw [shiftLeft_eq_ofNat_mul, BitVec.ofNat_mul, BitVec.ofInt_mul, BitVec.ofInt_toInt, hpow, BitVec.ofInt_natCast,
    BitVec.ofNat_toNat, BitVec.setWidth_eq]

section Shifts
variable (v : Word) {k : Int}

theorem shiftArithmetic_of_nonneg (h : 0 ≤ k) : shiftArithmetic v k = v <<< k.toNat := if_pos h

theorem shiftLogic_of_nonneg (h : 0 ≤ k) : shiftLogic v k = v <<< k.toNat := if_pos h

/-- The floor of the signed quotient is the shift that copies the sign bit in (R108, D15). -/
theorem shiftArithmetic_of_neg (h : k < 0) : shiftArithmetic v k = v.sshiftRight (-k).toNat := by
  have hpow : ((2 : Int) ^ (-k).toNat) = ((2 ^ (-k).toNat : Nat) : Int) := by push_cast; rfl
  rw [shiftArithmetic, if_neg (by omega), BitVec.sshiftRight, Int.shiftRight_eq_div_pow, hpow,
    Int.fdiv_eq_ediv_of_nonneg _ (Int.natCast_nonneg _)]

/-- The floor of the unsigned quotient is the shift that takes zeros in (R109, D15). -/
theorem shiftLogic_of_neg (h : k < 0) : shiftLogic v k = v >>> (-k).toNat := by
  rw [shiftLogic, if_neg (by omega)]
  apply BitVec.eq_of_toNat_eq
  rw [BitVec.toNat_ofNat, BitVec.toNat_ushiftRight, Nat.shiftRight_eq_div_pow]
  exact Nat.mod_eq_of_lt (Nat.lt_of_le_of_lt (Nat.div_le_self _ _) v.isLt)

end Shifts

/-- Settles O4: SHA answers `finishReg` with `shiftArithmetic`, a shift left or a shift right with copies of bit 15. -/
theorem shaShiftsSigned : Obligations.ShaShiftsSigned := by
  intro d a b s k n
  obtain ⟨hlow, hhigh⟩ := shiftAmount_bounds (s.reg b)
  refine ⟨decodeWord_encode (.sha d a b), hlow, hhigh, _, _, rfl, finishReg_spec s d (shiftArithmetic (s.reg a) k),
    fun hk => ?_, fun hk => ?_, fun hk i hi => ?_⟩
  · rw [shiftArithmetic_of_nonneg _ hk, shiftLeft_eq_ofInt_mul]
  · rw [shiftArithmetic_of_neg _ hk, BitVec.toInt_sshiftRight, Int.shiftRight_eq_div_pow]
    push_cast
    rfl
  · rw [shiftArithmetic_of_neg _ hk, BitVec.getLsbD_sshiftRight, BitVec.msb_eq_getLsbD_last, Nat.add_comm]
    simp [hi, n]

/-- Settles O5: SHL answers `finishReg` with `shiftLogic`, a shift left or a shift right with zeros. -/
theorem shlShiftsUnsigned : Obligations.ShlShiftsUnsigned := by
  intro d a b s k n
  refine ⟨decodeWord_encode (.shl d a b), _, _, rfl, finishReg_spec s d (shiftLogic (s.reg a) k),
    fun hk => ?_, fun hk => ?_, fun hk i hi => ?_⟩
  · rw [shiftLogic_of_nonneg _ hk, shiftLeft_eq_ofNat_mul]
  · rw [shiftLogic_of_neg _ hk, BitVec.toNat_ushiftRight, Nat.shiftRight_eq_div_pow]
  · rw [shiftLogic_of_neg _ hk, BitVec.getLsbD_ushiftRight, Nat.add_comm]
    have hbit : (s.reg a).getLsbD (i + n) = true → i + n < 16 := BitVec.lt_of_getLsbD
    grind

/-- A shift right takes in copies of the sign bit or zeros, which show in bit 15. -/
theorem sshiftRight_eq_ushiftRight_iff (v : Word) {n : Nat} (hn : 0 < n) :
    v.sshiftRight n = v >>> n ↔ 0 ≤ v.toInt := by
  rw [← Int.not_lt, ← decide_eq_false_iff_not, ← BitVec.msb_eq_toInt]
  refine ⟨fun h => ?_, BitVec.sshiftRight_eq_of_msb_false⟩
  have hmsb := congrArg BitVec.msb h
  rwa [BitVec.msb_sshiftRight, BitVec.msb_ushiftRight, decide_eq_true hn] at hmsb

/-- Settles O6: the two left shifts are one function, and the two right shifts agree where the sign bit is 0. -/
theorem shaEqualsShlUnlessNegativeShiftedRight : Obligations.ShaEqualsShlUnlessNegativeShiftedRight := by
  intro d a b s
  refine ⟨_, _, rfl, rfl, ?_⟩
  rw [State.reg_finishReg_self, State.reg_finishReg_self, ← shiftAmount]
  rcases Int.lt_or_le (shiftAmount (s.reg b)) 0 with hk | hk
  · rw [shiftArithmetic_of_neg _ hk, shiftLogic_of_neg _ hk, sshiftRight_eq_ushiftRight_iff _ (by omega)]
    exact (or_iff_right (Int.not_le.mpr hk)).symm
  · rw [shiftArithmetic_of_nonneg _ hk, shiftLogic_of_nonneg _ hk]
    exact iff_of_true rfl (.inl hk)

end Sys2Proof.Machine

/-! The laws of the compares (41_compare.md R126). -/

namespace Sys2Proof.Machine

theorem boolWord_or (p q : Bool) : boolWord (p || q) = boolWord p ||| boolWord q := by
  cases p <;> cases q <;> rfl

theorem boolWord_inj {p q : Bool} : boolWord p = boolWord q ↔ p = q := by
  cases p <;> cases q <;> decide

theorem boolWord_eq_zero_or_one (p : Bool) : boolWord p = 0x0000#16 ∨ boolWord p = 0x0001#16 := by
  cases p
  · exact .inl rfl
  · exact .inr rfl

theorem leSigned_eq_or (x y : Word) : leSigned x y = (ltSigned x y || eqWord x y) := by
  rw [leSigned, ltSigned, eqWord, ← Bool.decide_or, decide_eq_decide, ← BitVec.toInt_inj, Int.le_iff_lt_or_eq]

theorem leUnsigned_eq_or (x y : Word) : leUnsigned x y = (ltUnsigned x y || eqWord x y) := by
  rw [leUnsigned, ltUnsigned, eqWord, ← Bool.decide_or, decide_eq_decide, ← BitVec.toNat_inj, Nat.le_iff_lt_or_eq]

/-- The two orders differ on words of different sign only. -/
theorem ltSigned_ne_ltUnsigned_iff (x y : Word) : ltSigned x y ≠ ltUnsigned x y ↔ x.getLsbD 15 ≠ y.getLsbD 15 := by
  have hslt : ltSigned x y = ((x.getLsbD 15 != y.getLsbD 15) ^^ ltUnsigned x y) := BitVec.slt_eq_ult
  rw [hslt]
  cases x.getLsbD 15 <;> cases y.getLsbD 15 <;> simp

/-- Settles O9: each compare answers `finishReg` with the word of its relation, and the laws are those of the relations. -/
theorem compareLaws : Obligations.CompareLaws := by
  intro d a b s
  refine ⟨_, _, _, _, _, rfl, rfl, rfl, rfl, rfl, ?_, ?_, ?_, ?_⟩
  · simp only [State.reg_finishReg_self, leSigned_eq_or, boolWord_or]
  · simp only [State.reg_finishReg_self, leUnsigned_eq_or, boolWord_or]
  · simp only [List.forall_mem_cons, State.reg_finishReg_self, boolWord_eq_zero_or_one, List.not_mem_nil, false_imp_iff,
      implies_true, and_self]
  · rw [State.reg_finishReg_self, State.reg_finishReg_self, Ne, boolWord_inj]
    exact ltSigned_ne_ltUnsigned_iff _ _

end Sys2Proof.Machine

/-! MOVHI (42_move_immediate.md R130, R132). -/

namespace Sys2Proof.Machine

theorem getLsbD_withHighByte (v : Word) (n : BitVec 8) (i : Nat) :
    (withHighByte v n).getLsbD i = if i < 8 then v.getLsbD i else n.getLsbD (i - 8) := by
  rw [withHighByte, lowByte, BitVec.getLsbD_append, BitVec.getLsbD_extractLsb', Nat.zero_add]
  by_cases h : i < 8 <;> simp [h]

/-- Settles O11: MOVHI answers `finishReg` with the byte put above the low byte of Rd. -/
theorem movhiReplacesHighByte : Obligations.MovhiReplacesHighByte := fun d n s =>
  ⟨decodeWord_encode (.movhi d n), _, _, rfl, finishReg_spec s d (withHighByte (s.reg d) n),
    fun i _ => getLsbD_withHighByte (s.reg d) n i⟩

@[simp] theorem lowByte_sext8 (n : BitVec 8) : lowByte (sext8 n) = n := by
  apply BitVec.eq_of_getLsbD_eq
  intro i hi
  rw [lowByte, BitVec.getLsbD_extractLsb', Nat.zero_add, getLsbD_sext8 n (by omega), if_pos hi, decide_eq_true hi,
    Bool.true_and]

/-- Settles O12: MOVI leaves `lo` in the low byte of Rd, which MOVHI keeps below `hi`. -/
theorem moviThenMovhiLoadsAnyConstant : Obligations.MoviThenMovhiLoadsAnyConstant := by
  intro d hi lo s
  refine ⟨_, _, rfl, rfl, ?_, ?_, fun k hk => ?_, fun _ => rfl⟩
  · rw [State.reg_finishReg_self, State.reg_finishReg_self, withHighByte, lowByte_sext8]
  · exact BitVec.add_assoc s.pc 2#16 2#16
  · rw [State.reg_finishReg_ne _ _ hk, State.reg_finishReg_ne _ _ hk]

end Sys2Proof.Machine

/-! The address of a load or store, and a load after a store (20_memory.md R42, R43, R47). -/

namespace Sys2Proof.Machine

theorem toNat_ofInt16 (x : Int) : ((BitVec.ofInt 16 x).toNat : Int) = x % 65536 := by
  rw [BitVec.toNat_ofInt]
  exact Int.toNat_of_nonneg (Int.emod_nonneg x (by decide))

/-- Settles O19: the sum with N6 is taken modulo 2^16, and clearing bit 0 halves and doubles. -/
theorem effectiveAddressWraps : Obligations.EffectiveAddressWraps := by
  intro a n s
  refine ⟨?_, toNat_clearBit0 _, isEven_clearBit0 _⟩
  rw [State.ea, add_sext6, toNat_ofInt16]

/-- LDB leaves the signed value of the byte at its address in Rd. -/
theorem toInt_reg_finishReg_sextByte (s : State) (d : RegNum) (v : Byte) :
    ((s.finishReg d (sextByte v)).reg d).toInt = v.toInt := by
  rw [State.reg_finishReg_self, sextByte_eq_sext8, toInt_sext8]

/-- Settles O20: the store moves no base register, so LD reads the word stored and LDB one of its two bytes. -/
theorem storeThenLoadReturnsValue : Obligations.StoreThenLoadReturnsValue := by
  intro d a b n n' s
  have hlow := s.byte_setWord_self (s.wordAddr a n) (s.reg b)
  have hhigh := s.byte_setWord_succ (s.wordAddr a n) (s.reg b)
  refine ⟨_, _, rfl, rfl, ?_, fun h => ⟨_, rfl, ?_⟩, fun h => ⟨_, rfl, ?_⟩⟩
  · rw [State.reg_finishReg_self]
    exact s.word_setWord_self (s.wordAddr a n) (s.reg b)
  · rw [toInt_reg_finishReg_sextByte, ← hlow, ← h]
    rfl
  · rw [toInt_reg_finishReg_sextByte, ← hhigh, ← h]
    rfl

end Sys2Proof.Machine

/-! IN, OUT and JALR (44_input_output.md R151 to R154, 45_control_transfer.md R163, R164). -/

namespace Sys2Proof.Machine

/-- Settles O21: IN answers `receive` with what the port presents. -/
theorem inReadsOracleAndRecords : Obligations.InReadsOracleAndRecords := by
  intro d n s
  have hreg : (s.receive d (portOf n) (s.inputNow (portOf n))).reg d = s.inputNow (portOf n) :=
    State.reg_receive_self _ _ _ _
  exact ⟨portOf n, rfl, decodeWord_encode (.inp d n), _, rfl, hreg, by rw [hreg, State.receive_trace], rfl,
    fun _ hk => State.reg_receive_ne s _ _ hk, fun _ => rfl, fun _ => rfl⟩

/-- Settles O22: OUT answers `setOut`, then `advance`, which moves the pc alone. -/
theorem outWritesPort : Obligations.OutWritesPort := fun a n s =>
  ⟨portOf n, rfl, decodeWord_encode (.out n a), _, rfl, s.out_setOut_self (portOf n) (s.reg a),
    fun _ hq => s.out_setOut_ne (s.reg a) hq, rfl, rfl, fun _ => rfl, fun _ => rfl⟩

/-- Bits 5 to 0 take no part in spelling JALR (R86). -/
theorem decodeWord_jalr (d a : RegNum) (x : BitVec 6) : decodeWord (word2R 7#4 a d x) = .ok (.jalr d a) := by
  simp [decodeWord]

/-- Settles O25: the target is read before the link is written. -/
theorem jalrJumpsAndLinks : Obligations.JalrJumpsAndLinks := fun d a x s =>
  ⟨decodeWord_jalr d a x, _, rfl, s.reg_setReg_self d s.nextPc, rfl, fun _ hk => s.reg_setReg_ne s.nextPc hk,
    fun _ => rfl, fun _ => rfl, rfl⟩

theorem sext8_eq_ofInt (n : BitVec 8) : sext8 n = BitVec.ofInt 16 n.toInt := rfl

/-- Settles O26: taking the low 16 bits commutes with the sum and with doubling. -/
theorem targetsWrapAndAreEven : Obligations.TargetsWrapAndAreEven := by
  intro d a n s
  refine ⟨?_, State.isEven_branchTarget n, _, rfl, isEven_clearBit0 _⟩
  rw [State.branchTarget, State.nextPc, BitVec.shiftLeft_eq_mul_twoPow, sext8_eq_ofInt, BitVec.ofInt_add, BitVec.ofInt_add,
    BitVec.ofInt_mul, ofInt_toNat, BitVec.mul_comm]
  rfl

end Sys2Proof.Machine

/-! A word that decodes is the encoding of its instruction, but for the bits that are ignored (30_encoding.md R86, D14). -/

namespace Sys2Proof.Machine

theorem and_FE3F (w : Word) :
    w &&& 0xFE3F#16 = word3R (opcodeField w) (regField9 w) 0 (regField3 w) (functionField w) := by
  have hm : 0xFE3F#16 = BitVec.allOnes 4 ++ BitVec.allOnes 3 ++ 0#3 ++ BitVec.allOnes 3 ++ BitVec.allOnes 3 := by decide
  conv_lhs => rw [← word3R_fields w, hm, word3R]
  refine BitVec.and_append.trans ?_
  simp only [BitVec.and_append, BitVec.and_zero, BitVec.and_allOnes]
  rfl

theorem and_FFC0 (w : Word) : w &&& 0xFFC0#16 = word2R (opcodeField w) (regField9 w) (regField6 w) 0 := by
  have hm : 0xFFC0#16 = BitVec.allOnes 4 ++ BitVec.allOnes 3 ++ BitVec.allOnes 3 ++ 0#6 := by decide
  conv_lhs => rw [← word2R_fields w, hm, word2R]
  refine BitVec.and_append.trans ?_
  simp only [BitVec.and_append, BitVec.and_zero, BitVec.and_allOnes]
  rfl

/-- The bits of an instruction's words that are not ignored. -/
def usedBits : Instr → Word
  | .not _ _ => 0xFE3F#16
  | .jalr _ _ => 0xFFC0#16
  | _ => 0xFFFF#16

theorem and_FFFF (w : Word) : w &&& 0xFFFF#16 = w := BitVec.and_allOnes

/-- What decoding `w` answers, if an instruction, encodes to the used bits of `w`. -/
def Restores (w : Word) : Decoded Instr → Prop
  | .ok i => encode i = w &&& usedBits i
  | .rejected _ => True

section Restores
variable {w : Word} {c : BitVec 4} (hc : (opcodeField w).toNat = c.toNat)
include hc

theorem word3R_restores {f : BitVec 3} (hf : (functionField w).toNat = f.toNat) :
    word3R c (regField9 w) (regField6 w) (regField3 w) f = w &&& 0xFFFF#16 := by
  rw [and_FFFF, ← BitVec.eq_of_toNat_eq hc, ← BitVec.eq_of_toNat_eq hf, word3R_fields]

theorem word2R_restores : word2R c (regField9 w) (regField6 w) (n6Field w) = w &&& 0xFFFF#16 := by
  rw [and_FFFF, ← BitVec.eq_of_toNat_eq hc, word2R_fields]

theorem word1R_restores {e : Bool} (he : extensionField w = e) :
    word1R c (regField9 w) e (n8Field w) = w &&& 0xFFFF#16 := by
  rw [and_FFFF, ← BitVec.eq_of_toNat_eq hc, ← he, word1R_fields]

end Restores

theorem decodeLogic_restores {w : Word} (hc : (opcodeField w).toNat = 0) : Restores w (decodeLogic w) := by
  have hlt := (functionField w).isLt
  unfold decodeLogic
  split
  case h_4 hf =>
    have hc0 : opcodeField w = 0#4 := BitVec.eq_of_toNat_eq hc
    have hf3 : functionField w = 3#3 := BitVec.eq_of_toNat_eq hf
    rw [Restores, usedBits, and_FE3F, hc0, hf3]
    rfl
  case h_8 =>
    have hf : (functionField w).toNat = 7 := by grind
    exact word3R_restores hc hf
  all_goals exact word3R_restores hc ‹_›

theorem decodeCompare_restores {w : Word} (hc : (opcodeField w).toNat = 1) : Restores w (decodeCompare w) := by
  unfold decodeCompare
  split
  case h_6 => trivial
  all_goals exact word3R_restores hc ‹_›

theorem decodeWord_restores (w : Word) : Restores w (decodeWord w) := by
  unfold decodeWord
  split
  case h_1 hc => exact decodeLogic_restores hc
  case h_2 hc => exact decodeCompare_restores hc
  case h_8 hc =>
    have hc7 : opcodeField w = 7#4 := BitVec.eq_of_toNat_eq hc
    rw [Restores, usedBits, and_FFC0, hc7]
    rfl
  case h_9 hc | h_10 hc | h_11 hc =>
    split
    · next he => exact word1R_restores hc he
    · next he => exact word1R_restores hc (eq_false_of_ne_true he)
  case h_12 | h_13 => trivial
  all_goals exact word2R_restores ‹_›

/-- Settles O41: decoding reads each field that it does not ignore into the operand the encoder puts there. -/
theorem encodeOfDecodeRestoresUsedBits : Obligations.EncodeOfDecodeRestoresUsedBits := by
  intro w i h
  have hbits : Restores w (.ok i) := h ▸ decodeWord_restores w
  refine Eq.trans hbits ?_
  cases i with
  | not | jalr => rfl
  | _ => exact and_FFFF w

/-- Settles O45: eight of the words are the encodings of their instructions, and the opcode of 0xFFFF is 0xF. -/
theorem sampleWordsDecode : Obligations.SampleWordsDecode := by
  refine ⟨decodeWord_encode (.add 3 1 2), decodeWord_encode (.cmpeq 3 1 2), decodeWord_encode (.ld 3 1 0b111110#6),
    decodeWord_encode (.stb 1 2 0b100000#6), decodeWord_encode (.jalr 7 6), decodeWord_encode (.bnz 1 0b11111101#8),
    decodeWord_encode (.movhi 3 0b10010010#8), decodeWord_encode (.out 0b11111111#8 3), ?_⟩
  exact decodeWord_of_futureExtension (by decide)

end Sys2Proof.Machine

/-! The assembler (30_encoding.md R88 to R91). -/

namespace Sys2Proof.Machine

open Sys2Proof.Laws

@[simp] theorem asmReg_val (r : RegNum) : asmReg r.val = some r := dif_pos r.isLt

@[simp] theorem asmLit_toInt6 (n : BitVec 6) : asmLit 6 n.toInt = some n := by
  rw [asmLit, if_pos (litWf_toInt6 n), BitVec.ofInt_toInt]

@[simp] theorem asmLit_toInt8 (n : BitVec 8) : asmLit 8 n.toInt = some n := by
  rw [asmLit, if_pos (litWf_toInt8 n), BitVec.ofInt_toInt]

@[simp] theorem asmLit_toNat8 (n : BitVec 8) : asmLit 8 (n.toNat : Int) = some n := by
  rw [asmLit, if_pos (litWf_toNat8 n), ofInt_toNat]

/-- Settles O46, by the operand form: each operand written is read back by the reader of its form. -/
theorem assembleOfDisassembleIsIdentity : Obligations.AssembleOfDisassembleIsIdentity := by
  intro i
  change assemble ⟨.op i.mnemonic, i.asmOperands⟩ = some i
  cases i with
  | and | or | xor | add | sub | sha | shl | cmplt | cmple | cmpeq | cmpltu | cmpleu =>
    simp [assemble, AsmName.mnemonic, Instr.mnemonic, Instr.asmOperands, asm3]
  | not | jalr => simp [assemble, AsmName.mnemonic, Instr.mnemonic, Instr.asmOperands, asm2]
  | addi => simp [assemble, AsmName.mnemonic, Instr.mnemonic, Instr.asmOperands, asmAddi]
  | ld | ldb => simp [assemble, AsmName.mnemonic, Instr.mnemonic, Instr.asmOperands, asmLoad]
  | st | stb => simp [assemble, AsmName.mnemonic, Instr.mnemonic, Instr.asmOperands, asmStore]
  | bz | bnz | movi | movhi | inp => simp [assemble, AsmName.mnemonic, Instr.mnemonic, Instr.asmOperands, asm1]
  | out => simp [assemble, AsmName.mnemonic, Instr.mnemonic, Instr.asmOperands, asmOut]

theorem isSome_asmReg (k : Nat) : (asmReg k).isSome = regWf k := by
  by_cases h : k < 8 <;> simp [asmReg, regWf, h]

theorem isSome_asmLit (n : Nat) (v : Int) : (asmLit n v).isSome = litWf n v := by
  unfold asmLit
  split <;> simp_all

theorem isSome_map2 {α β γ : Type} (f : α → β → γ) (x : Option α) (y : Option β) :
    (do return f (← x) (← y) : Option γ).isSome = (x.isSome && y.isSome) := by
  cases x <;> cases y <;> rfl

theorem isSome_map3 {α β γ δ : Type} (f : α → β → γ → δ) (x : Option α) (y : Option β) (z : Option γ) :
    (do return f (← x) (← y) (← z) : Option δ).isSome = (x.isSome && y.isSome && z.isSome) := by
  cases x <;> cases y <;> cases z <;> rfl

section Accepts
variable (ops : List AsmOperand)

theorem isSome_asm3 (f : RegNum → RegNum → RegNum → Instr) : (asm3 f ops).isSome = AsmForm.regRegReg.accepts ops := by
  unfold asm3
  split
  · rw [isSome_map3, isSome_asmReg, isSome_asmReg, isSome_asmReg, AsmForm.accepts]
  · simp_all [AsmForm.accepts]

theorem isSome_asm2 (f : RegNum → RegNum → Instr) : (asm2 f ops).isSome = AsmForm.regReg.accepts ops := by
  unfold asm2
  split
  · rw [isSome_map2, isSome_asmReg, isSome_asmReg, AsmForm.accepts]
  · simp_all [AsmForm.accepts]

theorem isSome_asmLoad (f : RegNum → RegNum → BitVec 6 → Instr) :
    (asmLoad f ops).isSome = AsmForm.regDisp.accepts ops := by
  unfold asmLoad
  split
  · rw [isSome_map3, isSome_asmReg, isSome_asmReg, isSome_asmLit, AsmForm.accepts]
  · simp_all [AsmForm.accepts]

theorem isSome_asmStore (f : RegNum → RegNum → BitVec 6 → Instr) :
    (asmStore f ops).isSome = AsmForm.dispReg.accepts ops := by
  unfold asmStore
  split
  · rw [isSome_map3, isSome_asmReg, isSome_asmReg, isSome_asmLit, AsmForm.accepts]
  · simp_all [AsmForm.accepts]

theorem isSome_asm1 (f : RegNum → BitVec 8 → Instr) : (asm1 f ops).isSome = AsmForm.regN8.accepts ops := by
  unfold asm1
  split
  · rw [isSome_map2, isSome_asmReg, isSome_asmLit, AsmForm.accepts]
  · simp_all [AsmForm.accepts]

theorem isSome_asmAddi : (asmAddi ops).isSome = AsmForm.regRegN6.accepts ops := by
  unfold asmAddi
  split
  · rw [isSome_map3, isSome_asmReg, isSome_asmReg, isSome_asmLit, AsmForm.accepts]
  · simp_all [AsmForm.accepts]

theorem isSome_asmOut : (asmOut ops).isSome = AsmForm.n8Reg.accepts ops := by
  unfold asmOut
  split
  · rw [isSome_map2, isSome_asmLit, isSome_asmReg, AsmForm.accepts]
  · simp_all [AsmForm.accepts]

end Accepts

/-- Settles O47: the reader of each form answers exactly on the operands the form accepts. -/
theorem assembleAcceptsExactlyWellFormedLines : Obligations.AssembleAcceptsExactlyWellFormedLines := by
  intro ⟨name, ops⟩
  unfold assemble AsmLine.wf
  cases name.mnemonic with
  | and | or | xor | add | sub | sha | shl | cmplt | cmple | cmpeq | cmpltu | cmpleu => exact isSome_asm3 ops _
  | not | jalr => exact isSome_asm2 ops _
  | addi => exact isSome_asmAddi ops
  | ld | ldb => exact isSome_asmLoad ops _
  | st | stb => exact isSome_asmStore ops _
  | bz | bnz | movi | movhi | inp => exact isSome_asm1 ops _
  | out => exact isSome_asmOut ops

end Sys2Proof.Machine

/-! The launch (70_reset_and_hazards.md R190 to R194). -/

namespace Sys2Proof.Machine

/-- Placing bytes elsewhere leaves what an address reads as. -/
theorem read_foldl_write_of_ne (image : List (Word × Byte)) (m : Memory) {a : Word} (h : ∀ c ∈ image, c.1 ≠ a) :
    Memory.read (image.foldl (fun m c => Memory.write m c.1.toNat c.2) m) a.toNat = Memory.read m a.toNat := by
  induction image generalizing m with
  | nil => rfl
  | cons c image ih =>
    obtain ⟨hc, himage⟩ := List.forall_mem_cons.mp h
    have hne : a.toNat ≠ c.1.toNat := fun e => hc (BitVec.eq_of_toNat_eq e.symm)
    exact (ih _ himage).trans (Memory.read_write_ne m c.2 hne)

/-- Of the bytes placed at an address the last one stays. -/
theorem read_loadImage (before : List (Word × Byte)) {after : List (Word × Byte)} {a : Word} (v : Byte)
    (h : ∀ c ∈ after, c.1 ≠ a) : Memory.read (loadImage (before ++ (a, v) :: after)) a.toNat = v := by
  rw [loadImage, List.foldl_append, List.foldl_cons, read_foldl_write_of_ne after _ h, Memory.read_write_self]

/-- Settles O48: a launch sets each field from its parameter, and reads the last byte placed at an address. -/
theorem launchGivesLaunchState : Obligations.LaunchGivesLaunchState := by
  intro p
  refine ⟨fun heven => ⟨_, if_pos heven, ⟨heven, loadImage_wf _⟩, rfl, fun _ => rfl, fun _ => rfl, rfl, ?_⟩,
    fun hodd => if_neg (ne_true_of_eq_false hodd)⟩
  intro before after a v himage hafter
  rw [State.byte, himage]
  exact read_loadImage before v hafter

/-- The 65536 bytes of `f` as an image, each at its address once. -/
theorem exists_image (f : Word → Byte) :
    ∃ image : List (Word × Byte), (∀ a, (a, f a) ∈ image) ∧ image.Pairwise fun x y => x.1 ≠ y.1 := by
  refine ⟨(List.finRange 65536).map fun k => (BitVec.ofFin k, f (BitVec.ofFin k)), fun a => ?_, List.pairwise_map.mpr ?_⟩
  · exact List.mem_map.mpr ⟨a.toFin, List.mem_finRange _, rfl⟩
  · exact (List.nodup_finRange 65536).imp fun hne he => hne (congrArg BitVec.toFin he)

/-- Where an image names each address once, every byte of it stays. -/
theorem read_loadImage_of_mem {image : List (Word × Byte)} {a : Word} {v : Byte} (hmem : (a, v) ∈ image)
    (hpairs : image.Pairwise fun x y => x.1 ≠ y.1) : Memory.read (loadImage image) a.toNat = v := by
  obtain ⟨before, after, rfl⟩ := List.append_of_mem hmem
  rw [List.pairwise_append, List.pairwise_cons] at hpairs
  obtain ⟨-, ⟨hafter, -⟩, -⟩ := hpairs
  exact read_loadImage before v fun c hc => (hafter c hc).symm

theorem launch_initMem (image : List (Word × Byte)) :
    State.launch { Config.defaultLaunch with initMem := image } = .next { State.reset with mem := loadImage image } :=
  if_pos (by decide : isEven 0x0000#16 = true)

/-- Settles O49: the launch of an image that names each address once, with the byte of `f`. -/
theorem everyMemoryCanBeLaunched : Obligations.EveryMemoryCanBeLaunched := by
  intro f
  obtain ⟨image, hmem, hpairs⟩ := exists_image f
  exact ⟨_, _, launch_initMem image, fun a => read_loadImage_of_mem (hmem a) hpairs⟩

/-- Settles O50: the default parameters are those of `State.reset`, and each of its cells is zero. -/
theorem resetIsDefaultLaunch : Obligations.ResetIsDefaultLaunch :=
  ⟨rfl, rfl, rfl, fun _ => Vector.getElem_replicate _, fun _ => Vector.getElem_replicate _, fun _ => rfl⟩

end Sys2Proof.Machine

/-! The canonical form of memory (log entry 3). -/

namespace Sys2Proof.Machine

theorem mem_of_read_ne_unlisted {m : Memory} {a : Nat} (h : Memory.read m a ≠ Memory.unlisted) :
    (a, Memory.read m a) ∈ m := by
  induction m with
  | nil => exact absurd rfl h
  | cons c m ih =>
    obtain ⟨k, b⟩ := c
    by_cases hk : k = a
    · simp [Memory.read, hk]
    · simp only [Memory.read, if_neg hk] at h ⊢
      exact List.mem_cons_of_mem _ (ih h)

theorem read_of_mem {m : Memory} {c : Host.Cell} (hm : m.Pairwise fun x y => x.1 < y.1) (hc : c ∈ m) :
    Memory.read m c.1 = c.2 := by
  induction m with
  | nil => cases hc
  | cons e m ih =>
    obtain ⟨he, hm⟩ := List.pairwise_cons.mp hm
    rcases List.mem_cons.mp hc with rfl | hc
    · exact if_pos rfl
    · exact (if_neg (he c hc).ne).trans (ih hm hc)

/-- A canonical memory lists exactly what reads as a listed byte. -/
theorem mem_iff_read {m : Memory} (hm : Memory.wf m) (c : Host.Cell) :
    c ∈ m ↔ c.2 ≠ Memory.unlisted ∧ Memory.read m c.1 = c.2 := by
  constructor
  · exact fun hc => ⟨(hm.2 c hc).2, read_of_mem hm.1 hc⟩
  · rintro ⟨hne, hread⟩
    have hmem := mem_of_read_ne_unlisted (hread ▸ hne : Memory.read m c.1 ≠ Memory.unlisted)
    rwa [hread] at hmem

/-- What a canonical memory lists, another lists that reads alike. -/
theorem mem_of_reads {m m' : Memory} (hm : Memory.wf m) (hm' : Memory.wf m')
    (hreads : ∀ a : Word, Memory.read m a.toNat = Memory.read m' a.toNat) {c : Host.Cell} (hc : c ∈ m) : c ∈ m' := by
  obtain ⟨hne, hread⟩ := (mem_iff_read hm c).mp hc
  have hc1 : (BitVec.ofNat 16 c.1).toNat = c.1 := Nat.mod_eq_of_lt (hm.2 c hc).1
  have hsame := hreads (BitVec.ofNat 16 c.1)
  rw [hc1, hread] at hsame
  exact (mem_iff_read hm' c).mpr ⟨hne, hsame.symm⟩

theorem nodup_of_wf {m : Memory} (hm : Memory.wf m) : m.Nodup := hm.1.imp fun hlt he => hlt.ne (congrArg Prod.fst he)

/-- Settles O52: the two list the same cells, and a rising list is determined by what it lists. -/
theorem canonicalMemoryIsDeterminedByReads : Obligations.CanonicalMemoryIsDeterminedByReads := by
  intro m m' hm hm' hreads
  have hperm : m.Perm m' := (List.perm_ext_iff_of_nodup (nodup_of_wf hm) (nodup_of_wf hm')).mpr fun c =>
    ⟨mem_of_reads hm hm' hreads, mem_of_reads hm' hm fun a => (hreads a).symm⟩
  exact hperm.eq_of_pairwise (fun _ _ _ _ hxy hyx => absurd hxy hyx.asymm) hm.1 hm'.1

end Sys2Proof.Machine

/-! Runs (70_reset_and_hazards.md R197). -/

namespace Sys2Proof.Machine

section Run
variable {ends : List Word} {s : State}

theorem runUntil_of_mem (k : Nat) (hs : s.pc ∈ ends) : runUntil ends k s = .over s := by
  cases k <;> exact if_pos hs

/-- A step of a run outside END. -/
theorem runUntil_succ_of_next {k : Nat} {u : State} (hs : s.pc ∉ ends) (hstep : step s = .next u) :
    runUntil ends (k + 1) s = runUntil ends k u := by
  simp [runUntil, hs, hstep]

theorem runUntil_succ_ne_over {k : Nat} {t : State} (hs : s.pc ∉ ends) (hstep : ∀ u, step s ≠ .next u) :
    runUntil ends (k + 1) s ≠ .over t := by
  rw [runUntil, if_neg hs]
  split
  · next u hu => exact absurd hu (hstep u)
  · exact nofun
  · exact nofun

end Run

/-- A run that is over ended in END, by steps that start outside it. -/
theorem stepsOutside_of_over {ends : List Word} {k : Nat} {s t : State} (h : runUntil ends k s = .over t) :
    t.pc ∈ ends ∧ ∃ n, n ≤ k ∧ StepsOutside ends n s t := by
  induction k generalizing s with
  | zero =>
    rw [runUntil] at h
    split at h
    · next hs =>
      cases h
      exact ⟨hs, 0, Nat.le_refl 0, .stay _⟩
    · cases h
  | succ k ih =>
    by_cases hs : s.pc ∈ ends
    · cases (runUntil_of_mem (k + 1) hs).symm.trans h
      exact ⟨hs, 0, Nat.zero_le _, .stay _⟩
    · cases hstep : step s with
      | next u =>
        rw [runUntil_succ_of_next hs hstep] at h
        obtain ⟨ht, n, hn, hsteps⟩ := ih h
        exact ⟨ht, n + 1, Nat.succ_le_succ hn, .step hs hstep hsteps⟩
      | fault r | refused r => exact absurd h (runUntil_succ_ne_over hs (by simp [hstep]))

/-- Enough steps find the end that steps outside END lead to. -/
theorem over_of_stepsOutside {ends : List Word} {n k : Nat} {s t : State} (ht : t.pc ∈ ends) (hn : n ≤ k)
    (h : StepsOutside ends n s t) : runUntil ends k s = .over t := by
  induction h generalizing k with
  | stay => exact runUntil_of_mem k ht
  | step outside one rest ih =>
    obtain ⟨k, rfl⟩ := Nat.exists_eq_succ_of_ne_zero (Nat.ne_zero_of_lt hn)
    rw [runUntil_succ_of_next outside one]
    exact ih ht (Nat.le_of_succ_le_succ hn)

/-- Settles O51: one direction by induction on the steps allowed, the other on the steps taken. -/
theorem runIsOverAtFirstEnd : Obligations.RunIsOverAtFirstEnd := fun _ _ _ _ =>
  ⟨stepsOutside_of_over, fun ⟨ht, _, hn, hsteps⟩ => over_of_stepsOutside ht hn hsteps⟩

end Sys2Proof.Machine
